-- ==== Sys2Proof/Word.lean ====
section
/-! DEFINITION. The one storage unit of the machine, the 3-bit cell (R26). Registers have no width: they are `Int` (R5, R10). -/

namespace Sys2Proof

/-- A cell of program memory, and an element of the output sequence: a value 0..7 (R26, R16).
The spec reads a cell as the number it holds and never shifts or masks it, so it is a bounded number. -/
abbrev Cell := Fin 8

end Sys2Proof
end

