-- ==== Sys2Proof/Machine/Arith.lean ====
section
/-! DEFINITION. The arithmetic of the machine, exact on integers (R64): truncating division by a power of two, exclusive-or, and reduction
modulo 8. -/

namespace Sys2Proof.Machine

/-- Division truncating toward zero (R65): floor of the quotient for a dividend of at least 0, and minus the floor of the negated dividend's
quotient below 0. For a divisor above 0, `/` on `Int` is the floor. -/
def tdiv (a b : Int) : Int :=
  if 0 ≤ a then a / b else -((-a) / b)

/-- `2^k` for an integer `k` of at least 0 (R66). The instructions test the sign of `k` before they use it. -/
def pow2 (k : Int) : Int := ((2 ^ k.toNat : Nat) : Int)

/-- The quotient `tdiv a (pow2 k)` for `k ≥ 0`, without forming a power whose quotient is 0 anyway (R70 allows this; DEDUCED, log 11). -/
def divPow2 (a k : Int) : Int :=
  if a.natAbs.log2 < k.toNat then 0 else tdiv a (pow2 k)

/-- Exclusive-or of integers read in two's complement with unending sign extension (R67). The integer `-(m+1)` has the complement of each
digit of `m`. -/
def ixor : Int → Int → Int
  | .ofNat m, .ofNat n => .ofNat (m ^^^ n)
  | .ofNat m, .negSucc n => .negSucc (m ^^^ n)
  | .negSucc m, .ofNat n => .negSucc (m ^^^ n)
  | .negSucc m, .negSucc n => .ofNat (m ^^^ n)

/-- Binary digit `i` of an integer: `floor(n / 2^i) mod 2` (R67). -/
def digit (n : Int) (i : Nat) : Int := n / ((2 ^ i : Nat) : Int) % 2

/-- The remainder modulo 8 in 0..7 (R68). -/
def mod8 (a : Int) : Int := a - 8 * (a / 8)

/-- A value 0..7 as a cell. -/
def toCell (v : Int) : Cell := Fin.ofNat 8 v.toNat

end Sys2Proof.Machine
end

