-- ==== Sys2Proof/Syntax.lean ====
section
/-! DEFINITION. The instructions: one constructor for each row of spec/opcode_table.json (R48, R49), with the operand already decoded
in the mode its opcode fixes (R44, R55). -/

namespace Sys2Proof

/-- The three general registers (R10). -/
inductive Reg where
  | a
  | b
  | c
  deriving DecidableEq, Repr

/-- A decoded combo operand (R46, R55): a constant 0..3 or a register. The reserved value 7 has no combo operand: it is a row of its own.
That a constant is at most 3 is a check of `Sys2Proof.Combo.wf`. -/
inductive Combo where
  | lit (n : Cell)
  | reg (r : Reg)
  deriving DecidableEq, Repr

/-- The thirteen rows of the opcode table. -/
inductive Instr where
  /-- Opcode 0 (R72). -/
  | adv (o : Combo)
  /-- Opcode 1 (R75): the operand is a literal 0..7. -/
  | bxl (l : Cell)
  /-- Opcode 2 (R76). -/
  | bst (o : Combo)
  /-- Opcode 3 (R79): the operand is a literal 0..7. -/
  | jnz (l : Cell)
  /-- Opcode 4 (R77): the operand cell is fetched and ignored (R47). It is kept here so that an encoding loses no bit (log 7). -/
  | bxc (x : Cell)
  /-- Opcode 5 (R85). -/
  | out (o : Combo)
  /-- Opcode 6 (R73). -/
  | bdv (o : Combo)
  /-- Opcode 7 (R74). -/
  | cdv (o : Combo)
  /-- The reserved pair (0,7) (R49). -/
  | reservedAdv7
  /-- The reserved pair (2,7) (R49). -/
  | reservedBst7
  /-- The reserved pair (5,7) (R49). -/
  | reservedOut7
  /-- The reserved pair (6,7) (R49). -/
  | reservedBdv7
  /-- The reserved pair (7,7) (R49). -/
  | reservedCdv7
  deriving DecidableEq, Repr

/-- The five reserved rows (R49). -/
def Instr.isReserved : Instr → Bool
  | .adv _ => false
  | .bxl _ => false
  | .bst _ => false
  | .jnz _ => false
  | .bxc _ => false
  | .out _ => false
  | .bdv _ => false
  | .cdv _ => false
  | .reservedAdv7 => true
  | .reservedBst7 => true
  | .reservedOut7 => true
  | .reservedBdv7 => true
  | .reservedCdv7 => true

end Sys2Proof
end

