-- ==== Sys2Proof/WellFormed.lean ====
section
/-! DEFINITION. Well-formed instructions: those that a pair of cells encodes (R46, R55). -/

namespace Sys2Proof

/-- A combo constant is 0, 1, 2 or 3 (R46). -/
def Combo.wf : Combo → Bool
  | .lit n => decide (n.val ≤ 3)
  | .reg _ => true

/-- Every operand is one that an encoding has: combo operands by `Combo.wf`; a literal and an ignored operand take all eight values
(R45, R47); a reserved row has none. -/
def Instr.wf : Instr → Bool
  | .adv o => o.wf
  | .bxl _ => true
  | .bst o => o.wf
  | .jnz _ => true
  | .bxc _ => true
  | .out o => o.wf
  | .bdv o => o.wf
  | .cdv o => o.wf
  | .reservedAdv7 => true
  | .reservedBst7 => true
  | .reservedOut7 => true
  | .reservedBdv7 => true
  | .reservedCdv7 => true

end Sys2Proof
end

