-- ==== Sys2Proof/Decode.lean ====
section
/-! DEFINITION. The decoder, total on pairs of cells (R55), and after it the encoder (R42, R43), the assembler notation (R53) and the
table's numbering of an instruction word. -/

namespace Sys2Proof

/-- Why a list of cells or a word is no instruction. -/
inductive DecodeError where
  /-- Fewer than two cells are left: no full pair (R41). -/
  | noFullPair
  /-- The word has a bit set above bit 5: an instruction has six bits (R41, R43). -/
  | strayBits (w : Nat)
  deriving DecidableEq, Repr

/-- The meaning of a combo operand cell (R46); `none` is the reserved value 7. -/
def comboDecode (o : Cell) : Option Combo :=
  match o with
  | 0 => some (.lit 0)
  | 1 => some (.lit 1)
  | 2 => some (.lit 2)
  | 3 => some (.lit 3)
  | 4 => some (.reg .a)
  | 5 => some (.reg .b)
  | 6 => some (.reg .c)
  | 7 => none

/-- A combo-mode row: its instruction, or the reserved row when the operand is 7 (R49). -/
def decodeCombo (make : Combo → Instr) (reserved : Instr) (operand : Cell) : Instr :=
  match comboDecode operand with
  | some o => make o
  | none => reserved

/-- Decode one pair (R48, R55): the opcode selects the row, the row's mode decodes the operand. Every pair has a row. -/
def decode (opcode operand : Cell) : Instr :=
  match opcode with
  | 0 => decodeCombo .adv .reservedAdv7 operand
  | 1 => .bxl operand
  | 2 => decodeCombo .bst .reservedBst7 operand
  | 3 => .jnz operand
  | 4 => .bxc operand
  | 5 => decodeCombo .out .reservedOut7 operand
  | 6 => decodeCombo .bdv .reservedBdv7 operand
  | 7 => decodeCombo .cdv .reservedCdv7 operand

/-- Decode the first pair of a list of cells, lower address first (R30), and give back the rest. -/
def decodeCells : List Cell → Except DecodeError (Instr × List Cell)
  | opcode :: operand :: rest => .ok (decode opcode operand, rest)
  | [_] => .error .noFullPair
  | [] => .error .noFullPair

/-- The opcode half of an instruction word, bits 5..3 (R43). -/
def wordOpcode (w : Nat) : Cell := Fin.ofNat 8 (w / 8)

/-- The operand half of an instruction word, bits 2..0 (R43). -/
def wordOperand (w : Nat) : Cell := Fin.ofNat 8 w

/-- Decode a six-bit instruction word (R43), laid out as two cells, the opcode first. -/
def decodeWord (w : Nat) : Except DecodeError Instr :=
  if w < 64 then
    match decodeCells [wordOpcode w, wordOperand w] with
    | .ok (i, _) => .ok i
    | .error e => .error e
  else .error (.strayBits w)

/-- The instruction of a word numbered as spec/opcode_table.json numbers it: opcode in bits 5..3, operand in bits 2..0. -/
def decodeTableWord (_nbits w : Nat) : Option Instr :=
  match decodeWord w with
  | .ok i => some i
  | .error _ => none

/-- The operand cell that encodes a combo operand (R46). -/
def Combo.encode : Combo → Cell
  | .lit n => n
  | .reg .a => 4
  | .reg .b => 5
  | .reg .c => 6

/-- The opcode of each row (R48, R49). -/
def Instr.opcode : Instr → Cell
  | .adv _ => 0
  | .bxl _ => 1
  | .bst _ => 2
  | .jnz _ => 3
  | .bxc _ => 4
  | .out _ => 5
  | .bdv _ => 6
  | .cdv _ => 7
  | .reservedAdv7 => 0
  | .reservedBst7 => 2
  | .reservedOut7 => 5
  | .reservedBdv7 => 6
  | .reservedCdv7 => 7

/-- The operand cell of each row (R44 to R47, R49). -/
def Instr.operand : Instr → Cell
  | .adv o => o.encode
  | .bxl l => l
  | .bst o => o.encode
  | .jnz l => l
  | .bxc x => x
  | .out o => o.encode
  | .bdv o => o.encode
  | .cdv o => o.encode
  | .reservedAdv7 => 7
  | .reservedBst7 => 7
  | .reservedOut7 => 7
  | .reservedBdv7 => 7
  | .reservedCdv7 => 7

/-- The two cells of an instruction, the opcode at the lower address (R30, R42). -/
def encode (i : Instr) : List Cell := [i.opcode, i.operand]

/-- The six-bit instruction word `8 * opcode + operand` (R43). -/
def encodeWord (i : Instr) : Nat := 8 * i.opcode.val + i.operand.val

/-- The cells of a program written as a list of instructions (R52, R53: the pairs in line order). -/
def assemble : List Instr → List Cell
  | [] => []
  | i :: rest => encode i ++ assemble rest

/-- The rows a list of cells lays out as non-overlapping pairs (R31). -/
def disassemble : List Cell → Except DecodeError (List Instr)
  | [] => .ok []
  | [_] => .error .noFullPair
  | opcode :: operand :: rest =>
    match disassemble rest with
    | .ok is => .ok (decode opcode operand :: is)
    | .error e => .error e

/-- A digit of the assembler notation (R53). -/
def parseDigit (t : String) : Option Cell :=
  if t = "0" then some 0
  else if t = "1" then some 1
  else if t = "2" then some 2
  else if t = "3" then some 3
  else if t = "4" then some 4
  else if t = "5" then some 5
  else if t = "6" then some 6
  else if t = "7" then some 7
  else none

/-- The operand cell of a combo operand as written (R53): `0` to `3`, `A`, `B`, `C`, or `7!` for the reserved value. -/
def parseCombo (t : String) : Option Cell :=
  if t = "0" then some 0
  else if t = "1" then some 1
  else if t = "2" then some 2
  else if t = "3" then some 3
  else if t = "A" ∨ t = "a" then some 4
  else if t = "B" ∨ t = "b" then some 5
  else if t = "C" ∨ t = "c" then some 6
  else if t = "7!" then some 7
  else none

/-- The opcode a mnemonic names, written in lower or upper case (R53). -/
def parseMnemonic (t : String) : Option Cell :=
  if t = "adv" ∨ t = "ADV" then some 0
  else if t = "bxl" ∨ t = "BXL" then some 1
  else if t = "bst" ∨ t = "BST" then some 2
  else if t = "jnz" ∨ t = "JNZ" then some 3
  else if t = "bxc" ∨ t = "BXC" then some 4
  else if t = "out" ∨ t = "OUT" then some 5
  else if t = "bdv" ∨ t = "BDV" then some 6
  else if t = "cdv" ∨ t = "CDV" then some 7
  else none

/-- The operand cell of a line, in the mode of its opcode (R44, R53); the operand of `bxc` may be left out and is then 0. -/
def parseOperand (opcode : Cell) (operands : List String) : Option Cell :=
  match opcode, operands with
  | 4, [] => some 0
  | 1, [t] => parseDigit t
  | 3, [t] => parseDigit t
  | 4, [t] => parseDigit t
  | _, [t] => parseCombo t
  | _, _ => none

/-- One line of the assembler notation, given as its words (R53, log 14). -/
def parseLine : List String → Option Instr
  | [] => none
  | m :: operands =>
    match parseMnemonic m with
    | none => none
    | some opcode =>
      match parseOperand opcode operands with
      | none => none
      | some operand => some (decode opcode operand)

/-- A program in the assembler notation, one line a list of words, to its cells (R53). -/
def assembleText : List (List String) → Option (List Cell)
  | [] => some []
  | line :: rest =>
    match parseLine line, assembleText rest with
    | some i, some cells => some (encode i ++ cells)
    | _, _ => none

end Sys2Proof
end

