-- ==== Sys2Proof/Config.lean ====
section
/-! DEFINITION. The parameters of a run (spec/00_scope.md section 5) and the values the model names where the spec gives none. The spec
leaves no value open (spec/93_implementation_defined.md section 1), so there is no free value here. -/

namespace Sys2Proof

/-- The parameter `ODD_FETCH` (R32, D4): what a fetch at an odd program counter does when a full pair remains. -/
inductive OddFetch where
  /-- The fetch raises `MisalignedFetch`. The spec's default. -/
  | fault
  /-- The fetch reads the two cells as at an even address. -/
  | overlap
  deriving DecidableEq, Repr

/-- The spec's default of `ODD_FETCH` (R32). -/
def Config.defaultOddFetch : OddFetch := .fault

/-- DESIGN CHOICE (log 1, unsafe): the value the registers A, B and C hold before a launch. The spec gives no default (R23, D15). -/
def Config.resetRegister : Int := 0

/-- DESIGN CHOICE (log 3, unsafe): the step ceiling before a launch. -/
def Config.resetStepLimit : Option Nat := none

end Sys2Proof
end

