-- ==== Sys2Proof/Machine/State.lean ====
section
/-! DEFINITION. The state of the machine (R9), the reasons a step can stop (R88), and the state before a launch. -/

namespace Sys2Proof.Machine

/-- The whole state (R9), with the parameters of the run that the spec gives beside it (R22, spec/00_scope.md section 5). `STATUS` (R20) is
the function `State.status` of these fields, as R20 and R56 allow (log 4). -/
structure State where
  /-- Register A, an unbounded signed integer (R10, R11). -/
  a : Int
  /-- Register B (R10, R11). -/
  b : Int
  /-- Register C (R10, R11). -/
  c : Int
  /-- The program counter, a natural number that never wraps (R13). -/
  pc : Nat
  /-- The output sequence, earliest value first (R16, R86). -/
  out : List Cell
  /-- The program memory: the cell at index `i` is at address `i` (R15, R25). Empty: no program has been launched (log 2). -/
  prog : List Cell
  /-- The instructions executed since launch (R19). -/
  steps : Nat
  /-- The step ceiling of the run, if it has one (R93). -/
  stepLimit : Option Nat
  /-- The setting of `ODD_FETCH` (R32). -/
  oddFetch : OddFetch
  deriving DecidableEq, Repr

/-- `LEN`, the length of the Program (spec/00_scope.md section 5). -/
abbrev State.len (s : State) : Nat := s.prog.length

/-- Why a Program is malformed (R94, R109). -/
inductive Malformed where
  /-- The Program has no cell. -/
  | emptyProgram
  /-- The Program has an odd number of cells. -/
  | oddLength (len : Nat)
  /-- The lowest index whose value is not in 0..7, and that value. -/
  | cellOutOfRange (index : Nat) (value : Int)
  deriving DecidableEq, Repr

/-- Why the machine has no further step: the five ways a run stops (R88), with what each records. -/
inductive Fault where
  /-- The normal end of a run (R58, R59, R89): no full pair remains at the program counter. Raised by the halting test of `step`. It is no
  exception of the program: it stands here because the host's interface has no fourth outcome (log 6). Safe: the spec gives no next state. -/
  | halted
  /-- The step ceiling is reached (R93). Raised by the budget test of `step`. Safe: the spec gives no next state. -/
  | budgetExhausted
  /-- A combo-mode opcode with operand 7 was about to execute (R90). Raised by the five reserved rows. Safe: the spec stops the machine. -/
  | invalidOperand (pc : Nat) (opcode : Cell)
  /-- A fetch at an odd program counter with `ODD_FETCH = fault` (R91). Raised by `step` before the fetch. Safe: the spec stops the machine. -/
  | misalignedFetch (pc : Nat)
  /-- ADV, BDV or CDV with a negative ref value (R92). Raised by these three. Safe: the spec stops the machine. -/
  | negativeShiftCount (pc : Nat) (k : Int)
  deriving DecidableEq, Repr

/-- Why there is no machine to step. -/
inductive Refusal where
  /-- The instruction has no meaning in the model. Raised by no arm: every row has its meaning. Safe. -/
  | notModelled (mnemonic : String)
  /-- The Program is malformed (R94). Raised by `launch`, which then makes no state. Safe: the spec refuses the launch. -/
  | malformedProgram (reason : Malformed)
  /-- No Program has been launched (R111, log 2). Raised by `step` when the program memory is empty. Safe: the spec has no step before a launch. -/
  | notLaunched
  deriving DecidableEq, Repr

/-- The values of `STATUS` (R20). -/
inductive FaultKind where
  | invalidOperand
  | misalignedFetch
  | negativeShiftCount
  deriving DecidableEq, Repr

/-- `STATUS` (R20): how the run stands. -/
inductive Status where
  | running
  | halted
  | budgetExhausted
  | fault (kind : FaultKind)
  deriving DecidableEq, Repr

/-- The machine before any launch (R111): no Program, program counter 0, no output, no step counted (R23); registers and ceiling at the
values the log names (log 1, log 3); `ODD_FETCH` at the spec's default (R32). -/
def State.reset : State where
  a := Config.resetRegister
  b := Config.resetRegister
  c := Config.resetRegister
  pc := 0
  out := []
  prog := []
  steps := 0
  stepLimit := Config.resetStepLimit
  oddFetch := Config.defaultOddFetch

end Sys2Proof.Machine
end

