-- ==== Sys2Proof/Machine/Ops.lean ====
section
/-! DEFINITION. The named operations over registers, program counter, output and program memory; the tests made before a fetch; and how a
fault is taken. -/

namespace Sys2Proof.Machine

/-- The register a name stands for (R10, R12). -/
def State.getReg (s : State) : Reg → Int
  | .a => s.a
  | .b => s.b
  | .c => s.c

/-- Write a register: the value is stored exactly (R11). -/
def State.setReg (s : State) (r : Reg) (v : Int) : State :=
  match r with
  | .a => { s with a := v }
  | .b => { s with b := v }
  | .c => { s with c := v }

/-- Sequential advance (R62). -/
def State.advance (s : State) : State := { s with pc := s.pc + 2 }

/-- Write the program counter (R79). -/
def State.jumpTo (s : State) (target : Nat) : State := { s with pc := target }

/-- Append one value to the output sequence (R16). -/
def State.emit (s : State) (v : Cell) : State := { s with out := s.out ++ [v] }

/-- Count a committed instruction (R19, R56). -/
def State.countStep (s : State) : State := { s with steps := s.steps + 1 }

/-- `MemRead(addr, n)` (R27): the `n` cells from `addr` on, in address order; not defined outside the Program. -/
def State.memRead (s : State) (addr n : Nat) : Option (List Cell) :=
  if addr + n ≤ s.len then some ((s.prog.drop addr).take n) else none

/-- The pair at the program counter (R29): the opcode at the lower address, the operand at the next (R30). -/
def State.fetchPair (s : State) : Option (Cell × Cell) :=
  match s.memRead s.pc 2 with
  | some [opcode, operand] => some (opcode, operand)
  | _ => none

/-- The instruction at the program counter, fetched and decoded (R29, R55). -/
def State.fetchInstr (s : State) : Option Instr :=
  match s.fetchPair with
  | some (opcode, operand) => some (decode opcode operand)
  | none => none

/-- A Program is loaded; a launched Program is never empty (R94). -/
def State.launched (s : State) : Bool := !s.prog.isEmpty

/-- The halting test (R58): `pc ≥ LEN - 1` on integers, no full pair remains. The clause `pc < 0` is never true of a natural number (C7). -/
def State.atEnd (s : State) : Bool := decide (s.len ≤ s.pc + 1)

/-- The budget test (R93). -/
def State.budgetSpent (s : State) : Bool := decide (s.stepLimit = some s.steps)

/-- The alignment test (R91): an odd program counter with `ODD_FETCH = fault`. -/
def State.misaligned (s : State) : Bool := decide (s.pc % 2 = 1 ∧ s.oddFetch = .fault)

/-- The tests made before a fetch, in their order (R56 tests 1 to 3, R95). -/
def State.stopBeforeFetch (s : State) : Option Fault :=
  if s.atEnd then some .halted
  else if s.budgetSpent then some .budgetExhausted
  else if s.misaligned then some (.misalignedFetch s.pc)
  else none

/-- Taking a fault (R96): the machine stops with the fault, which is delivered to the host; nothing is saved, nothing changes and control goes
nowhere, so the state stays the one the host holds. There is no handler (R97) and no return from a fault (R98), so no operation beside this one. -/
def raise (f : Fault) : Host.Outcome State Fault Refusal := .fault f

/-- `InvalidOperand(pc, opcode)` (R90), recording the program counter of the pair and its opcode. -/
def raiseInvalidOperand (opcode : Cell) (s : State) : Host.Outcome State Fault Refusal :=
  raise (.invalidOperand s.pc opcode)

/-- Commit an instruction's outcome (R56): a completed instruction counts one step; a fault does not (R96). -/
def commit : Host.Outcome State Fault Refusal → Host.Outcome State Fault Refusal
  | .next t => .next t.countStep
  | .fault f => .fault f
  | .refused r => .refused r

/-- The `STATUS` value of a way to stop (R20, R88). -/
def Fault.status : Fault → Status
  | .halted => .halted
  | .budgetExhausted => .budgetExhausted
  | .invalidOperand _ _ => .fault .invalidOperand
  | .misalignedFetch _ => .fault .misalignedFetch
  | .negativeShiftCount _ _ => .fault .negativeShiftCount

/-- The reporting codes of the outcomes (R88, D10); a running machine has none. -/
def Status.code : Status → Option Nat
  | .running => none
  | .halted => some 0
  | .budgetExhausted => some 1
  | .fault .invalidOperand => some 2
  | .fault .misalignedFetch => some 3
  | .fault .negativeShiftCount => some 4

/-- The reporting code of a refused launch (R88). -/
def Malformed.code (_ : Malformed) : Nat := 5

/-- The program memory as (address, value) pairs, the form of the host's memory cells, for a reader that wants one (log 8). -/
def cellsFrom : Nat → List Cell → List Host.Cell
  | _, [] => []
  | n, v :: rest => (n, BitVec.ofNat 8 v.val) :: cellsFrom (n + 1) rest

/-- The memory of a state in that form: the addresses `0 .. LEN-1` (R34). -/
def State.memory (s : State) : List Host.Cell := cellsFrom 0 s.prog

/-- The canonical form of that list: addresses strictly rising, every value a 3-bit value. No address outside it reads as anything (R34). -/
def Memory.wf : List Host.Cell → Bool
  | [] => true
  | [x] => decide (x.2.toNat < 8)
  | x :: y :: rest => decide (x.2.toNat < 8) && decide (x.1 < y.1) && Memory.wf (y :: rest)

/-- A program memory with one pair at `addr` and `addr + 1`, lengthened with zero cells to an even length where it is too short. -/
def placePair (cells : List Cell) (addr : Nat) (opcode operand : Cell) : List Cell :=
  let padded := cells ++ List.replicate (addr + 2 + addr % 2 - cells.length) 0
  (padded.set addr opcode).set (addr + 1) operand

/-- A state whose next fetch reads the pair of the word `w` (R43): the load from outside that stands for a launch (log 2). Beside the two cells
it changes what would keep that fetch from happening: a ceiling already reached is taken away, and an odd program counter gets
`ODD_FETCH = overlap`. -/
def State.placeWord (s : State) (w : Nat) : State :=
  { s with
    prog := placePair s.prog s.pc (wordOpcode w) (wordOperand w)
    stepLimit := if s.budgetSpent then none else s.stepLimit
    oddFetch := if s.misaligned then .overlap else s.oddFetch }

end Sys2Proof.Machine
end

