-- ==== Sys2Proof/Machine/Operands.lean ====
section
/-! DEFINITION. The value of an operand in each mode (R44 to R47, R63). -/

namespace Sys2Proof.Machine

/-- The value of a decoded combo operand (R46, R63): a constant, or the whole value of a register. -/
def evalCombo (o : Combo) (s : State) : Int :=
  match o with
  | .lit n => (n.val : Int)
  | .reg r => s.getReg r

/-- The value of a literal operand: the cell's own number (R45). -/
def evalLiteral (l : Cell) : Int := (l.val : Int)

/-- `combo(o)` on the operand cell itself, as R63 writes it; `none` is `raise InvalidOperand`. -/
def combo (o : Cell) (s : State) : Option Int :=
  match o with
  | 0 => some 0
  | 1 => some 1
  | 2 => some 2
  | 3 => some 3
  | 4 => some s.a
  | 5 => some s.b
  | 6 => some s.c
  | 7 => none

end Sys2Proof.Machine
end

