-- ==== Sys2Proof/Machine/Bitwise.lean ====
section
/-! DEFINITION. The bitwise family BXL, BST and BXC (R75 to R78). -/

namespace Sys2Proof.Machine

/-- BXL (R75). -/
def execBxl (l : Cell) (s : State) : Host.Outcome State Fault Refusal :=
  .next (s.setReg .b (ixor s.b (evalLiteral l))).advance

/-- BST (R76). -/
def execBst (o : Combo) (s : State) : Host.Outcome State Fault Refusal :=
  .next (s.setReg .b (mod8 (evalCombo o s))).advance

/-- BXC (R77): the operand is ignored (R47). -/
def execBxc (_x : Cell) (s : State) : Host.Outcome State Fault Refusal :=
  .next (s.setReg .b (ixor s.b s.c)).advance

end Sys2Proof.Machine
end

