-- ==== Sys2Proof/Machine/Divide.lean ====
section
/-! DEFINITION. The divide family ADV, BDV and CDV (R71 to R74). -/

namespace Sys2Proof.Machine

/-- The common behaviour (R71): divide A by two to the ref value, both read before the instruction, and write the destination; a negative ref
value raises `NegativeShiftCount` (R66, R92) and changes nothing. -/
def divide (d : Reg) (o : Combo) (s : State) : Host.Outcome State Fault Refusal :=
  if evalCombo o s < 0 then raise (.negativeShiftCount s.pc (evalCombo o s))
  else .next (s.setReg d (divPow2 s.a (evalCombo o s))).advance

/-- ADV (R72). -/
def execAdv (o : Combo) (s : State) : Host.Outcome State Fault Refusal := divide .a o s

/-- BDV (R73). -/
def execBdv (o : Combo) (s : State) : Host.Outcome State Fault Refusal := divide .b o s

/-- CDV (R74). -/
def execCdv (o : Combo) (s : State) : Host.Outcome State Fault Refusal := divide .c o s

end Sys2Proof.Machine
end

