-- ==== Sys2Proof/Machine/Flags.lean ====
section
/-! DEFINITION. The machine has no flags (R17). Its one condition is the test of register A that JNZ makes. -/

namespace Sys2Proof.Machine

/-- JNZ's condition: the whole value of A is not zero at the moment JNZ executes (R17, R79). -/
def State.jumpTaken (s : State) : Bool := decide (s.a ≠ 0)

end Sys2Proof.Machine
end

