-- ==== Sys2Proof/Machine/Jump.lean ====
section
/-! DEFINITION. Control transfer: JNZ (R79 to R84). -/

namespace Sys2Proof.Machine

/-- JNZ (R79): to the literal, an absolute address (R80), when A is not zero; else sequential advance. What happens at the target is the next
step's affair (R82, R83). -/
def execJnz (l : Cell) (s : State) : Host.Outcome State Fault Refusal :=
  .next (if s.jumpTaken then s.jumpTo l.val else s.advance)

end Sys2Proof.Machine
end

