-- ==== Sys2Proof/Machine/Output.lean ====
section
/-! DEFINITION. Output: OUT (R85 to R87). -/

namespace Sys2Proof.Machine

/-- OUT (R85). -/
def execOut (o : Combo) (s : State) : Host.Outcome State Fault Refusal :=
  .next (s.emit (toCell (mod8 (evalCombo o s)))).advance

end Sys2Proof.Machine
end

