-- ==== Sys2Proof/Machine/Reserved.lean ====
section
/-! DEFINITION. The five reserved pairs (R49): executing one raises `InvalidOperand` and changes nothing (R90, R96). -/

namespace Sys2Proof.Machine

/-- The pair (0,7). -/
def execReservedAdv7 (s : State) : Host.Outcome State Fault Refusal := raiseInvalidOperand 0 s

/-- The pair (2,7). -/
def execReservedBst7 (s : State) : Host.Outcome State Fault Refusal := raiseInvalidOperand 2 s

/-- The pair (5,7). -/
def execReservedOut7 (s : State) : Host.Outcome State Fault Refusal := raiseInvalidOperand 5 s

/-- The pair (6,7). -/
def execReservedBdv7 (s : State) : Host.Outcome State Fault Refusal := raiseInvalidOperand 6 s

/-- The pair (7,7). -/
def execReservedCdv7 (s : State) : Host.Outcome State Fault Refusal := raiseInvalidOperand 7 s

end Sys2Proof.Machine
end

