-- ==== Sys2Proof/Machine/Dispatch.lean ====
section
/-! DEFINITION. The dispatch (R60): one arm for each row of the opcode table. -/

namespace Sys2Proof.Machine

def exec (i : Instr) (s : State) : Host.Outcome State Fault Refusal :=
  match i with
  | .adv o => Sys2Proof.Machine.execAdv o s
  | .bxl l => Sys2Proof.Machine.execBxl l s
  | .bst o => Sys2Proof.Machine.execBst o s
  | .jnz l => Sys2Proof.Machine.execJnz l s
  | .bxc x => Sys2Proof.Machine.execBxc x s
  | .out o => Sys2Proof.Machine.execOut o s
  | .bdv o => Sys2Proof.Machine.execBdv o s
  | .cdv o => Sys2Proof.Machine.execCdv o s
  | .reservedAdv7 => Sys2Proof.Machine.execReservedAdv7 s
  | .reservedBst7 => Sys2Proof.Machine.execReservedBst7 s
  | .reservedOut7 => Sys2Proof.Machine.execReservedOut7 s
  | .reservedBdv7 => Sys2Proof.Machine.execReservedBdv7 s
  | .reservedCdv7 => Sys2Proof.Machine.execReservedCdv7 s

end Sys2Proof.Machine
end

