-- ==== Sys2Proof/Machine/Step.lean ====
section
/-! DEFINITION. One step of the machine (R56, R8): the tests before a fetch, the fetch and decode, the instruction, the commit. -/

namespace Sys2Proof.Machine

/-- One step (R56). Tests 4 and 5 of R56 are the conditions under which an instruction itself raises a fault, so they are made by `exec`;
`State.status` states them on their own (log 17). The arm for a fetch that finds no pair is never reached: the halting test comes first (R33). -/
def step (s : State) : Host.Outcome State Fault Refusal :=
  if s.launched then
    match s.stopBeforeFetch with
    | some f => raise f
    | none =>
      match s.fetchInstr with
      | some i => commit (exec i s)
      | none => raise .halted
  else .refused .notLaunched

/-- The state `s` with the instruction of the table's word `w` stored where `step` fetches its next instruction (log 2). -/
def State.withFetchWord (s : State) (_nbits w : Nat) : State := s.placeWord w

end Sys2Proof.Machine
end

