-- ==== Sys2Proof/Machine/Status.lean ====
section
/-! DEFINITION. `status`, the function of R56 that says how a run stands, written on the raw pair as R56 writes it. -/

namespace Sys2Proof.Machine

/-- The opcodes whose operand is in combo mode (R44, R56 test 4). -/
def comboOpcode (opcode : Cell) : Bool :=
  decide (opcode = 0 ∨ opcode = 2 ∨ opcode = 5 ∨ opcode = 6 ∨ opcode = 7)

/-- The opcodes of the divide family (R71, R56 test 5). -/
def divideOpcode (opcode : Cell) : Bool :=
  decide (opcode = 0 ∨ opcode = 6 ∨ opcode = 7)

/-- `combo(operand) < 0` (R56 test 5). -/
def comboNegative (operand : Cell) (s : State) : Bool :=
  match combo operand s with
  | some k => decide (k < 0)
  | none => false

/-- `status(s)` (R56, R20): the tests in their order, the first that applies wins. -/
def State.status (s : State) : Status :=
  if s.atEnd then .halted
  else if s.budgetSpent then .budgetExhausted
  else if s.misaligned then .fault .misalignedFetch
  else
    match s.fetchPair with
    | none => .halted
    | some (opcode, operand) =>
      if comboOpcode opcode && decide (operand = 7) then .fault .invalidOperand
      else if divideOpcode opcode && comboNegative operand s then .fault .negativeShiftCount
      else .running

end Sys2Proof.Machine
end

