-- ==== Sys2Proof/Machine/Interface.lean ====
section
/-! DEFINITION. The host's side of the machine: launch (R108 to R110), running (R57), observing (R118), the result of a run (R119) and
abandoning it (R101). -/

namespace Sys2Proof.Machine

/-- A value a cell can hold (R26, R94). -/
def cellValue (v : Int) : Bool := decide (0 ≤ v ∧ v ≤ 7)

/-- The lowest index, counted from `n`, whose value is not in 0..7, with that value (R109). -/
def firstBadCell : Nat → List Int → Option (Nat × Int)
  | _, [] => none
  | n, v :: rest => if cellValue v then firstBadCell (n + 1) rest else some (n, v)

/-- The load check (R109, D13): empty, then odd length, then the lowest cell out of range. -/
def loadCheck (program : List Int) : Option Malformed :=
  if program.length = 0 then some .emptyProgram
  else if program.length % 2 = 1 then some (.oddLength program.length)
  else
    match firstBadCell 0 program with
    | some (i, v) => some (.cellOutOfRange i v)
    | none => none

/-- The launch state of a checked Program (R110). -/
def launchState (program : List Int) (a0 b0 c0 : Int) (limit : Option Nat) (odd : OddFetch) : State where
  a := a0
  b := b0
  c := c0
  pc := 0
  out := []
  prog := program.map toCell
  steps := 0
  stepLimit := limit
  oddFetch := odd

/-- Launch, the machine's only reset (R108): check the Program, then make a fresh state. It takes no earlier state: nothing survives from one
run to the next (R111). A malformed Program makes no state (R94). -/
def launch (program : List Int) (a0 b0 c0 : Int) (limit : Option Nat) (odd : OddFetch) :
    Host.Outcome State Fault Refusal :=
  match loadCheck program with
  | some reason => .refused (.malformedProgram reason)
  | none => .next (launchState program a0 b0 c0 limit odd)

/-- Let the machine step at most `k` times (R57, R117): the state it is in then, which is the state it stopped at if it stopped. -/
def runFor : Nat → State → State
  | 0, s => s
  | k + 1, s =>
    match step s with
    | .next t => runFor k t
    | .fault _ => s
    | .refused _ => s

/-- What the host can read at any state (R118). -/
structure Observation where
  out : List Cell
  a : Int
  b : Int
  c : Int
  pc : Nat
  steps : Nat
  status : Status
  deriving DecidableEq, Repr

/-- Observing (R118). -/
def observe (s : State) : Observation where
  out := s.out
  a := s.a
  b := s.b
  c := s.c
  pc := s.pc
  steps := s.steps
  status := s.status

/-- The result of a run as it stands (R119). -/
inductive RunResult where
  /-- Halted: the complete output sequence. -/
  | output (out : List Cell)
  /-- BudgetExhausted: the outcome itself, with the truncated prefix. -/
  | didNotHalt (emitted : List Cell)
  /-- A fault: a hard failure, which carries no output. -/
  | failed (f : Fault)
  /-- The run has not ended; the prefix emitted so far. -/
  | running (emitted : List Cell)
  /-- There was no run. -/
  | noRun (r : Refusal)
  deriving DecidableEq, Repr

/-- The result at a state (R119, R120). -/
def resultOf (s : State) : RunResult :=
  match step s with
  | .next _ => .running s.out
  | .fault .halted => .output s.out
  | .fault .budgetExhausted => .didNotHalt s.out
  | .fault (.invalidOperand p o) => .failed (.invalidOperand p o)
  | .fault (.misalignedFetch p) => .failed (.misalignedFetch p)
  | .fault (.negativeShiftCount p k) => .failed (.negativeShiftCount p k)
  | .refused r => .noRun r

/-- `execute(program, A, B, C)` with a step ceiling (R108, R119): launch, step up to the ceiling, take the result. -/
def execute (program : List Int) (a0 b0 c0 : Int) (ceiling : Nat) (odd : OddFetch) : RunResult :=
  match launch program a0 b0 c0 (some ceiling) odd with
  | .next s => resultOf (runFor ceiling s)
  | .fault f => .failed f
  | .refused r => .noRun r

/-- Abandon a run (R101, R117): the machine holds nothing afterwards (R111, log 15). -/
def abandon (_s : State) : State := State.reset

end Sys2Proof.Machine
end

