-- ==== Sys2Proof/Safety.lean ====
section
/-! DEFINITION. The terms in which claims speak of runs: reachability, how often OUT executed, and the premises and invariants of R14, R24,
R93 and R122. -/

namespace Sys2Proof.Machine

/-- `t` is a state of the run from `s` (R57). -/
inductive Reaches (s : State) : State → Prop where
  | start : Reaches s s
  | step {t u : State} : Reaches s t → Sys2Proof.Machine.step t = .next u → Reaches s u

/-- The machine has no further step from `s` (R56, R99). -/
def State.stopped (s : State) : Prop := ∀ t : State, step s ≠ .next t

/-- The instruction at the program counter is OUT. -/
def State.outNext (s : State) : Bool :=
  match s.fetchInstr with
  | some (.out _) => true
  | _ => false

/-- How many OUT instructions the machine executes when it is let step at most `k` times (R87). -/
def outsExecuted : Nat → State → Nat
  | 0, _ => 0
  | k + 1, s =>
    match step s with
    | .next t => (if s.outNext then 1 else 0) + outsExecuted k t
    | .fault _ => 0
    | .refused _ => 0

/-- `WellFormed(PROG)` (R122, R94), for a Program already held as cells: even length, at least 2. -/
abbrev wellFormedProgram (cells : List Cell) : Prop := cells.length % 2 = 0 ∧ 2 ≤ cells.length

/-- `WellFormed(PROG)` (R94, R122) of the integers the host gives a launch. -/
abbrev wellFormedLoad (program : List Int) : Prop :=
  program.length % 2 = 0 ∧ 2 ≤ program.length ∧ ∀ v ∈ program, 0 ≤ v ∧ v ≤ 7

/-- All registers are non-negative (R24, `NonNegativeStart` of R122). -/
abbrev State.nonNegative (s : State) : Prop := 0 ≤ s.a ∧ 0 ≤ s.b ∧ 0 ≤ s.c

/-- The bound on the program counter (R14). -/
abbrev State.pcBounded (s : State) : Prop := s.pc ≤ max s.len 7

/-- The step counter has not passed the ceiling (R93). -/
def State.withinBudget (s : State) : Prop := ∀ n : Nat, s.stepLimit = some n → s.steps ≤ n

/-- A machine that is launched and has passed the tests made before a fetch (R56 tests 1 to 3). -/
abbrev State.readyToFetch (s : State) : Prop := s.launched = true ∧ s.stopBeforeFetch = none

/-- The instruction writes an odd value to the program counter: a JNZ that is taken with an odd literal (R31, R83). -/
abbrev oddJumpTaken (i : Instr) (s : State) : Prop := ∃ l : Cell, i = .jnz l ∧ l.val % 2 = 1 ∧ s.a ≠ 0

/-- The outcome with its next state changed by `f`. -/
def mapNext (f : State → State) : Host.Outcome State Fault Refusal → Host.Outcome State Fault Refusal
  | .next t => .next (f t)
  | .fault r => .fault r
  | .refused r => .refused r

end Sys2Proof.Machine
end

