-- ==== Sys2Proof/Certificates/Slice0/Obligations.lean ====
section
/-! DEFINITION. The statements for the provers. Each docstring names the rule of spec/ it states, or says what it derives from. A result
statement gives the whole next state as an update of the state before, so every field it does not name is unchanged. -/

open Sys2Proof Sys2Proof.Machine

/-! ## Reset and launch -/

/-- The machine before a launch. The program counter 0, the empty output and the zero step count are the launch values of 10_state.md section 10;
the registers' zeros and the absent ceiling are the model's choice (log 1, log 3), and so are the empty Program and the refusal of a step (log 2). -/
def Obligations.ResetHoldsNoProgram : Prop :=
  State.reset.pc = 0 ∧ State.reset.out = [] ∧ State.reset.steps = 0 ∧ State.reset.oddFetch = .fault ∧
    State.reset.a = 0 ∧ State.reset.b = 0 ∧ State.reset.c = 0 ∧ State.reset.stepLimit = none ∧
    State.reset.prog = [] ∧ step State.reset = .refused .notLaunched

/-- R109, R94: the load check, in its order, and that a launch makes a state exactly for a well-formed Program. -/
def Obligations.LaunchChecksProgramInOrder : Prop :=
  ∀ (p : List Int) (a b c : Int) (limit : Option Nat) (odd : OddFetch),
    (p.length = 0 → launch p a b c limit odd = .refused (.malformedProgram .emptyProgram)) ∧
    (p.length % 2 = 1 →
      launch p a b c limit odd = .refused (.malformedProgram (.oddLength p.length))) ∧
    (∀ (i : Nat) (v : Int), p.length ≠ 0 → p.length % 2 = 0 → p[i]? = some v → ¬(0 ≤ v ∧ v ≤ 7) →
      (∀ (j : Nat) (w : Int), j < i → p[j]? = some w → 0 ≤ w ∧ w ≤ 7) →
      launch p a b c limit odd = .refused (.malformedProgram (.cellOutOfRange i v))) ∧
    ((∃ t, launch p a b c limit odd = .next t) ↔ wellFormedLoad p)

/-- The launch state of 70_reset_and_hazards.md section 2, with its status: BudgetExhausted with the ceiling 0; else Running when the first pair
is neither reserved nor a divide with a negative ref value. For a first pair that is, that section says Running and the status function of
40_cycle_and_arith.md section 2 a fault; the model follows the function (DEDUCED, log 5), and no clause here speaks of that case. -/
def Obligations.LaunchHoldsTheArguments : Prop :=
  ∀ (p : List Int) (a b c : Int) (limit : Option Nat) (odd : OddFetch), wellFormedLoad p →
    ∃ t, launch p a b c limit odd = .next t ∧ t.a = a ∧ t.b = b ∧ t.c = c ∧ t.pc = 0 ∧ t.out = [] ∧
      t.steps = 0 ∧ t.stepLimit = limit ∧ t.oddFetch = odd ∧ t.len = p.length ∧
      (∀ (i : Nat) (v : Int), p[i]? = some v → ∃ cell : Cell, t.prog[i]? = some cell ∧ (cell.val : Int) = v) ∧
      wellFormedProgram t.prog ∧ t.launched = true ∧ (limit = some 0 → t.status = .budgetExhausted) ∧
      (∀ op od : Cell, limit ≠ some 0 → p[0]? = some (op.val : Int) → p[1]? = some (od.val : Int) →
        ((op = 0 ∨ op = 2 ∨ op = 5 ∨ op = 6 ∨ op = 7) → od ≠ 7) →
        ((op = 0 ∨ op = 6 ∨ op = 7) → ∀ k, combo od t = some k → 0 ≤ k) →
        t.status = .running)

/-- The state before a launch meets the invariants that the statements below say every step keeps. The bound of the program counter rests on
its launch value 0 and holds of the model's empty Program (log 2); the non-negative registers are the model's choice of zeros (log 1), and
the budget bound its choice of no ceiling (log 3). -/
def Obligations.ResetMeetsTheInvariants : Prop :=
  State.reset.pcBounded ∧ State.reset.nonNegative ∧ State.reset.withinBudget

/-! ## Encoding -/

/-- Decoding the encoding of a well-formed instruction gives it back, as a pair, as cells and as a word of the table. -/
def Obligations.DecodeOfEncodeGivesTheInstruction : Prop :=
  ∀ i : Instr, i.wf = true →
    decode i.opcode i.operand = i ∧ (∀ rest : List Cell, decodeCells (encode i ++ rest) = .ok (i, rest)) ∧
      ∀ nbits : Nat, decodeTableWord nbits (encodeWord i) = some i

/-- Every pair decodes to a well-formed instruction with that opcode and that operand; a word of more than six bits is no instruction. At opcode 4
the operand clause is the model's choice (log 7): 30_encoding.md section 8 drops BXC's ignored operand, and the model's syntax keeps it. -/
def Obligations.EveryPairHasOneInstruction : Prop :=
  (∀ op od : Cell, (decode op od).wf = true ∧ (decode op od).opcode = op ∧ (decode op od).operand = od) ∧
    ∀ nbits w : Nat, 64 ≤ w → decodeTableWord nbits w = none

/-- Words written out from the table of 30_encoding.md section 4, one for each kind of row. -/
def Obligations.TableWordsDecodeAsWritten : Prop :=
  decodeTableWord 8 0b000011 = some (.adv (.lit 3)) ∧ decodeTableWord 8 0b001111 = some (.bxl 7) ∧
    decodeTableWord 8 0b010110 = some (.bst (.reg .c)) ∧ decodeTableWord 8 0b011000 = some (.jnz 0) ∧
    decodeTableWord 8 0b100111 = some (.bxc 7) ∧ decodeTableWord 8 0b101100 = some (.out (.reg .a)) ∧
    decodeTableWord 8 0b110101 = some (.bdv (.reg .b)) ∧ decodeTableWord 8 0b111010 = some (.cdv (.lit 2)) ∧
    decodeTableWord 8 0b101111 = some .reservedOut7

/-- A program assembled from well-formed instructions reads back pair by pair, and has two cells for each. -/
def Obligations.DisassembleOfAssemble : Prop :=
  ∀ is : List Instr, (∀ i ∈ is, i.wf = true) →
    disassemble (assemble is) = .ok is ∧ (assemble is).length = 2 * is.length

/-- The word of an instruction, placed where the next fetch reads, is the instruction the very next step runs: from every state (log 2). -/
def Obligations.PlacedWordRunsNext : Prop :=
  ∀ (s : State) (nbits w : Nat), w < 64 →
    ∃ i, decodeTableWord nbits w = some i ∧
      step (s.withFetchWord nbits w) = commit (exec i (s.withFetchWord nbits w))

/-! ## Operands and arithmetic -/

/-- R63: the value of a combo operand, cell by cell, and the decoded operand has that value. -/
def Obligations.ComboOperandValues : Prop :=
  ∀ s : State,
    combo 0 s = some 0 ∧ combo 1 s = some 1 ∧ combo 2 s = some 2 ∧ combo 3 s = some 3 ∧
    combo 4 s = some s.a ∧ combo 5 s = some s.b ∧ combo 6 s = some s.c ∧ combo 7 s = none ∧
    ∀ o : Cell, combo o s = (comboDecode o).map (fun c => evalCombo c s)

/-- R65: `tdiv` is the one quotient whose remainder is smaller than the divisor and zero or of the dividend's sign; its two floor
forms; the values the rule lists. -/
def Obligations.TruncatingQuotientIsUnique : Prop :=
  (∀ a b : Int, 0 < b →
    (∃ r, a = tdiv a b * b + r ∧ -b < r ∧ r < b ∧ (r = 0 ∨ (0 < r ∧ 0 < a) ∨ (r < 0 ∧ a < 0))) ∧
    (∀ q r : Int, a = q * b + r → -b < r → r < b → (r = 0 ∨ (0 < r ∧ 0 < a) ∨ (r < 0 ∧ a < 0)) → q = tdiv a b) ∧
    (0 ≤ a → tdiv a b = Int.fdiv a b) ∧ (a < 0 → tdiv a b = -Int.fdiv (-a) b)) ∧
  (∀ a : Int, tdiv a 1 = a) ∧
  tdiv 7 8 = 0 ∧ tdiv 8 8 = 1 ∧ tdiv (-7) 8 = 0 ∧ tdiv (-8) 8 = -1 ∧ tdiv (-9) 8 = -1 ∧ tdiv (-15) 8 = -1 ∧
  tdiv (-16) 8 = -2 ∧ tdiv (-7) 4 = -1

/-- R67: each binary digit of the exclusive-or is the exclusive-or of the digits; it is the only integer with those digits; its sign; the
values the rule lists. -/
def Obligations.XorWorksDigitByDigit : Prop :=
  (∀ a b : Int,
    (∀ i : Nat, digit (ixor a b) i = if digit a i = digit b i then 0 else 1) ∧
    (∀ n : Int, (∀ i : Nat, digit n i = if digit a i = digit b i then 0 else 1) → n = ixor a b) ∧
    (ixor a b < 0 ↔ ¬(a < 0 ↔ b < 0))) ∧
  (∀ n : Int, ixor n 0 = n ∧ ixor n n = 0 ∧ ixor n (-1) = -n - 1) ∧
  ixor 29 7 = 26 ∧ ixor 2024 43690 = 44354 ∧ ixor (-1) 7 = -8

/-- R68: the remainder modulo 8 in 0..7, also of a negative integer, and the values the rule lists; the cell emitted holds that value. -/
def Obligations.RemainderModuloEight : Prop :=
  (∀ a : Int, mod8 a = a - 8 * Int.fdiv a 8 ∧ 0 ≤ mod8 a ∧ mod8 a ≤ 7 ∧ ((toCell (mod8 a)).val : Int) = mod8 a) ∧
  mod8 0 = 0 ∧ mod8 9 = 1 ∧ mod8 (2 ^ 64 + 13) = 5 ∧ mod8 (-1) = 7 ∧ mod8 (-8) = 0 ∧ mod8 (-9) = 7

/-- R69: division by a power of two is a shift of the magnitude, with the sign put back; below zero it is not the arithmetic shift of the
dividend unless the power divides it. -/
def Obligations.DivisionAsShiftOfMagnitude : Prop :=
  ∀ (a : Int) (k : Nat),
    (0 ≤ a → tdiv a (pow2 k) = a >>> k) ∧ (a < 0 → tdiv a (pow2 k) = -((-a) >>> k)) ∧
    (a < 0 → ¬(pow2 k ∣ a) → tdiv a (pow2 k) = (a >>> k) + 1)

/-- R70: a power above the dividend's magnitude gives zero, in particular `2^a` for `a ≥ 0`. -/
def Obligations.LargeExponentGivesZero : Prop :=
  (∀ a k : Int, 0 ≤ k → -pow2 k < a → a < pow2 k → tdiv a (pow2 k) = 0) ∧
    ∀ a : Int, 0 ≤ a → tdiv a (pow2 a) = 0

/-! ## The instructions -/

/-- R72: ADV. The quotient goes to A and the program counter advances; a negative ref value faults; the pair (0,7) faults; operand 0 leaves A
unchanged; `adv A` gives zero for every A of at least zero. -/
def Obligations.AdvDividesIntoA : Prop :=
  ∀ (o : Combo) (s : State),
    (0 ≤ evalCombo o s → exec (.adv o) s =
      .next { s with a := tdiv s.a (pow2 (evalCombo o s)), pc := s.pc + 2 }) ∧
    (evalCombo o s < 0 → exec (.adv o) s = .fault (.negativeShiftCount s.pc (evalCombo o s))) ∧
    (∀ od : Cell, comboDecode od = some o → decode 0 od = .adv o) ∧
    exec (decode 0 7) s = .fault (.invalidOperand s.pc 0) ∧
    exec (.adv (.lit 0)) s = .next { s with pc := s.pc + 2 } ∧
    (0 ≤ s.a → exec (.adv (.reg .a)) s = .next { s with a := 0, pc := s.pc + 2 })

/-- R73: BDV. As ADV, with the quotient in B and A kept; operand 0 copies A to B. -/
def Obligations.BdvDividesIntoB : Prop :=
  ∀ (o : Combo) (s : State),
    (0 ≤ evalCombo o s → exec (.bdv o) s =
      .next { s with b := tdiv s.a (pow2 (evalCombo o s)), pc := s.pc + 2 }) ∧
    (evalCombo o s < 0 → exec (.bdv o) s = .fault (.negativeShiftCount s.pc (evalCombo o s))) ∧
    (∀ od : Cell, comboDecode od = some o → decode 6 od = .bdv o) ∧
    exec (decode 6 7) s = .fault (.invalidOperand s.pc 6) ∧
    exec (.bdv (.lit 0)) s = .next { s with b := s.a, pc := s.pc + 2 }

/-- R74: CDV. As ADV, with the quotient in C and A kept; operand 0 copies A to C. -/
def Obligations.CdvDividesIntoC : Prop :=
  ∀ (o : Combo) (s : State),
    (0 ≤ evalCombo o s → exec (.cdv o) s =
      .next { s with c := tdiv s.a (pow2 (evalCombo o s)), pc := s.pc + 2 }) ∧
    (evalCombo o s < 0 → exec (.cdv o) s = .fault (.negativeShiftCount s.pc (evalCombo o s))) ∧
    (∀ od : Cell, comboDecode od = some o → decode 7 od = .cdv o) ∧
    exec (decode 7 7) s = .fault (.invalidOperand s.pc 7) ∧
    exec (.cdv (.lit 0)) s = .next { s with c := s.a, pc := s.pc + 2 }

/-- R75: BXL, for every literal 0..7. Literal 0 leaves B unchanged; the digits above the low three are kept; the sign of B is kept. -/
def Obligations.BxlXorsLiteralIntoB : Prop :=
  ∀ (l : Cell) (s : State),
    exec (.bxl l) s = .next { s with b := ixor s.b l.val, pc := s.pc + 2 } ∧
    exec (.bxl 0) s = .next { s with pc := s.pc + 2 } ∧
    (∀ i : Nat, 3 ≤ i → digit (ixor s.b l.val) i = digit s.b i) ∧
    (0 ≤ s.b → 0 ≤ ixor s.b l.val) ∧ (s.b < 0 → ixor s.b l.val < 0) ∧
    decode 1 l = .bxl l

/-- R76: BST. B becomes the ref value modulo 8, a value 0..7; a constant is loaded as it is; the pair (2,7) faults. -/
def Obligations.BstLoadsRemainderIntoB : Prop :=
  ∀ (o : Combo) (s : State),
    exec (.bst o) s = .next { s with b := mod8 (evalCombo o s), pc := s.pc + 2 } ∧
    0 ≤ mod8 (evalCombo o s) ∧ mod8 (evalCombo o s) ≤ 7 ∧
    (∀ n : Cell, n.val ≤ 3 → exec (.bst (.lit n)) s = .next { s with b := n.val, pc := s.pc + 2 }) ∧
    (∀ od : Cell, comboDecode od = some o → decode 2 od = .bst o) ∧
    exec (decode 2 7) s = .fault (.invalidOperand s.pc 2)

/-- R77: BXC, for every operand cell, which has no effect. -/
def Obligations.BxcXorsCIntoB : Prop :=
  ∀ (x : Cell) (s : State),
    exec (.bxc x) s = .next { s with b := ixor s.b s.c, pc := s.pc + 2 } ∧
    decode 4 x = .bxc x ∧
    (s.c = 0 → exec (.bxc x) s = .next { s with pc := s.pc + 2 }) ∧
    (s.b = s.c → exec (.bxc x) s = .next { s with b := 0, pc := s.pc + 2 })

/-- R79: JNZ, for every literal 0..7: to the literal when the whole value of A is not zero, else on to the next pair; nothing but the program
counter changes. -/
def Obligations.JnzTestsTheWholeOfA : Prop :=
  ∀ (l : Cell) (s : State),
    (s.a ≠ 0 → exec (.jnz l) s = .next { s with pc := l.val }) ∧
    (s.a = 0 → exec (.jnz l) s = .next { s with pc := s.pc + 2 }) ∧
    decode 3 l = .jnz l

/-- R85: OUT. One value, the ref value modulo 8, is appended to the output; no register changes; the pair (5,7) faults. -/
def Obligations.OutEmitsRemainder : Prop :=
  ∀ (o : Combo) (s : State),
    (∃ v : Cell, (v.val : Int) = mod8 (evalCombo o s) ∧
      exec (.out o) s = .next { s with out := s.out ++ [v], pc := s.pc + 2 }) ∧
    (∀ n : Cell, n.val ≤ 3 →
      exec (.out (.lit n)) s = .next { s with out := s.out ++ [n], pc := s.pc + 2 }) ∧
    (∀ od : Cell, comboDecode od = some o → decode 5 od = .out o) ∧
    exec (decode 5 7) s = .fault (.invalidOperand s.pc 5)

/-- R49: the reserved pairs are the five with a combo-mode opcode and operand 7, and no others; executing one stops with `InvalidOperand`,
recording the program counter and the opcode, from every state; and the fault comes only from a reserved pair that is the one fetched. -/
def Obligations.ReservedPairsRaiseInvalidOperand : Prop :=
  (∀ op od : Cell, (decode op od).isReserved = true ↔
    od = 7 ∧ (op = 0 ∨ op = 2 ∨ op = 5 ∨ op = 6 ∨ op = 7)) ∧
  decode 0 7 = .reservedAdv7 ∧ decode 2 7 = .reservedBst7 ∧ decode 5 7 = .reservedOut7 ∧
  decode 6 7 = .reservedBdv7 ∧ decode 7 7 = .reservedCdv7 ∧
  ∀ s : State,
    exec .reservedAdv7 s = .fault (.invalidOperand s.pc 0) ∧
    exec .reservedBst7 s = .fault (.invalidOperand s.pc 2) ∧
    exec .reservedOut7 s = .fault (.invalidOperand s.pc 5) ∧
    exec .reservedBdv7 s = .fault (.invalidOperand s.pc 6) ∧
    exec .reservedCdv7 s = .fault (.invalidOperand s.pc 7) ∧
    ∀ (p : Nat) (op : Cell), step s = .fault (.invalidOperand p op) →
      s.fetchPair = some (op, 7) ∧ (decode op 7).isReserved = true

/-- R62 and the access table of 10_state.md section 3: what an instruction that completes leaves unchanged. A is written by ADV only, B by BXL,
BST, BXC and BDV only, C by CDV only, the output by OUT only; the Program, the step count and the parameters by none; every read of
program memory gives what it gave; and all but a taken JNZ advance the program counter by 2. -/
def Obligations.InstructionFrame : Prop :=
  ∀ (i : Instr) (s t : State), exec i s = .next t →
    ((∀ o, i ≠ .adv o) → t.a = s.a) ∧
    ((∀ l, i ≠ .bxl l) → (∀ o, i ≠ .bst o) → (∀ x, i ≠ .bxc x) → (∀ o, i ≠ .bdv o) → t.b = s.b) ∧
    ((∀ o, i ≠ .cdv o) → t.c = s.c) ∧
    ((∀ o, i ≠ .out o) → t.out = s.out) ∧
    t.prog = s.prog ∧ t.steps = s.steps ∧ t.stepLimit = s.stepLimit ∧ t.oddFetch = s.oddFetch ∧
    (∀ addr n : Nat, t.memRead addr n = s.memRead addr n) ∧
    ((∀ l, i = .jnz l → s.a = 0) → t.pc = s.pc + 2)

/-- R18: no instruction reads or writes the step count, the ceiling, the parameter `ODD_FETCH` or the Program. -/
def Obligations.BookkeepingIsInvisible : Prop :=
  ∀ (i : Instr) (s : State) (n : Nat) (limit : Option Nat) (odd : OddFetch) (cells : List Cell),
    exec i { s with steps := n, stepLimit := limit, oddFetch := odd, prog := cells } =
      mapNext (fun t => { t with steps := n, stepLimit := limit, oddFetch := odd, prog := cells }) (exec i s)

/-- No instruction reads the output: with more output before it, an instruction does the same and appends after it (10_state.md section 6). -/
def Obligations.OutputIsNeverRead : Prop :=
  ∀ (i : Instr) (s : State) (before : List Cell),
    exec i { s with out := before ++ s.out } =
      mapNext (fun t => { t with out := before ++ t.out }) (exec i s)

/-- The bitwise family BXL, BST and BXC (42_bitwise.md sections 2 and 3): none writes A or C, each that completes advances the program counter by 2,
only the pair (2,7) faults and every other completes, and with non-negative B and C before, B is non-negative after. None reads A but BST
with operand 4, whose rule makes it load the low digits of A: that exception to section 3 is the model's reading (DEDUCED, log 10). -/
def Obligations.BitwiseFamilyLeavesA : Prop :=
  ∀ (op od : Cell) (s : State), (op = 1 ∨ op = 2 ∨ op = 4) →
    (∀ t, exec (decode op od) s = .next t → t.a = s.a ∧ t.c = s.c ∧ t.pc = s.pc + 2 ∧
      (0 ≤ s.b → 0 ≤ s.c → 0 ≤ t.b)) ∧
    (¬(op = 2 ∧ od = 7) → ∃ t, exec (decode op od) s = .next t) ∧
    (∀ f, exec (decode op od) s = .fault f → op = 2 ∧ od = 7) ∧
    (¬(op = 2 ∧ od = 4) → ∀ v : Int, exec (decode op od) { s with a := v } =
      mapNext (fun t => { t with a := v }) (exec (decode op od) s)) ∧
    exec (decode 2 4) s = .next { s with b := mod8 s.a, pc := s.pc + 2 }

/-! ## Fetch and step -/

/-- R27: a read inside the Program gives the cells in address order; outside it is not defined. -/
def Obligations.MemReadGivesCellsInOrder : Prop :=
  ∀ (s : State) (addr n : Nat),
    (addr + n ≤ s.len → ∃ cells, s.memRead addr n = some cells ∧ cells.length = n ∧
      ∀ k, k < n → cells[k]? = s.prog[addr + k]?) ∧
    (s.len < addr + n → s.memRead addr n = none)

/-- R29, R33: when the halting test is not met the fetch reads the opcode at the program counter and the operand after it; when it is met
there is no pair to read. -/
def Obligations.FetchReadsOpcodeThenOperand : Prop :=
  ∀ s : State,
    (s.pc + 1 < s.len → ∃ op od : Cell, s.prog[s.pc]? = some op ∧ s.prog[s.pc + 1]? = some od ∧
      s.fetchPair = some (op, od)) ∧
    (s.len ≤ s.pc + 1 → s.fetchPair = none)

/-- A step runs the decoded instruction: past the tests made before a fetch, `step` is `exec` of the pair at the program counter, with one step
counted when the instruction completes and the same fault when it faults. -/
def Obligations.StepRunsTheDecodedInstruction : Prop :=
  ∀ (s : State) (op od : Cell), s.pc + 1 < s.len → s.stepLimit ≠ some s.steps →
    (s.pc % 2 = 0 ∨ s.oddFetch = .overlap) → s.prog[s.pc]? = some op → s.prog[s.pc + 1]? = some od →
    (∀ t, exec (decode op od) s = .next t → step s = .next { t with steps := t.steps + 1 }) ∧
    (∀ f, exec (decode op od) s = .fault f → step s = .fault f)

/-- R56: `status` decides whether the machine stops and how, and a running machine's step is the decoded instruction with `STEPS` one higher. -/
def Obligations.StepFollowsStatus : Prop :=
  ∀ s : State, s.prog ≠ [] →
    (s.status = .running → ∃ op od t, s.fetchPair = some (op, od) ∧ exec (decode op od) s = .next t ∧
      step s = .next { t with steps := s.steps + 1 }) ∧
    (s.status ≠ .running → ∃ f, step s = .fault f ∧ f.status = s.status)

/-! ## How a run stops -/

/-- R58: the machine halts exactly when no full pair remains at the program counter, whatever the registers, the output, the budget and the
parity are. -/
def Obligations.HaltsExactlyWithoutFullPair : Prop :=
  ∀ s : State, s.prog ≠ [] → (step s = .fault .halted ↔ s.len ≤ s.pc + 1)

/-- R93: the budget test, after the halting test and before the fetch; the ceiling 0; no ceiling; never more steps than the ceiling. -/
def Obligations.BudgetStopsAtTheCeiling : Prop :=
  (∀ s : State, s.prog ≠ [] →
    (step s = .fault .budgetExhausted ↔ s.pc + 1 < s.len ∧ s.stepLimit = some s.steps)) ∧
  (∀ (p : List Int) (a b c : Int) (odd : OddFetch) (t : State), launch p a b c (some 0) odd = .next t →
    step t = .fault .budgetExhausted) ∧
  (∀ s : State, s.stepLimit = none → step s ≠ .fault .budgetExhausted) ∧
  (∀ s t : State, s.withinBudget → step s = .next t → t.withinBudget)

/-- R91: a misaligned fetch, after the halting and budget tests, and the only way a program counter becomes odd. -/
def Obligations.MisalignedFetchExactly : Prop :=
  (∀ (s : State) (p : Nat), step s = .fault (.misalignedFetch p) ↔
    s.prog ≠ [] ∧ s.pc + 1 < s.len ∧ s.stepLimit ≠ some s.steps ∧ s.pc % 2 = 1 ∧ s.oddFetch = .fault ∧ p = s.pc) ∧
  (∀ (i : Instr) (s t : State), s.pc % 2 = 0 → exec i s = .next t → (t.pc % 2 = 1 ↔ oddJumpTaken i s))

/-- R90: an invalid operand, exactly when a combo-mode opcode with operand 7 is about to execute, with the program counter and opcode recorded;
the load check lets every such pair pass, at whatever even address of a well-formed Program it stands. -/
def Obligations.InvalidOperandExactly : Prop :=
  (∀ (s : State) (p : Nat) (op : Cell), step s = .fault (.invalidOperand p op) ↔
    s.readyToFetch ∧ s.fetchPair = some (op, 7) ∧ (op = 0 ∨ op = 2 ∨ op = 5 ∨ op = 6 ∨ op = 7) ∧ p = s.pc) ∧
  (∀ (p : List Int) (i : Nat) (op : Cell) (a b c : Int) (limit : Option Nat) (odd : OddFetch),
    wellFormedLoad p → i % 2 = 0 → (op = 0 ∨ op = 2 ∨ op = 5 ∨ op = 6 ∨ op = 7) →
    p[i]? = some (op.val : Int) → p[i + 1]? = some 7 →
    ∃ t, launch p a b c limit odd = .next t ∧ t.prog[i]? = some op ∧ t.prog[i + 1]? = some 7)

/-- R92: a negative shift count, exactly when a divide is about to execute with a negative ref value; never from non-negative registers. -/
def Obligations.NegativeShiftCountExactly : Prop :=
  (∀ (s : State) (p : Nat) (k : Int), step s = .fault (.negativeShiftCount p k) ↔
    s.readyToFetch ∧ p = s.pc ∧ k < 0 ∧ ∃ op od : Cell, s.fetchPair = some (op, od) ∧
      (op = 0 ∨ op = 6 ∨ op = 7) ∧ (od = 4 ∨ od = 5 ∨ od = 6) ∧ combo od s = some k) ∧
  (∀ (s : State) (p : Nat) (k : Int), s.nonNegative → step s ≠ .fault (.negativeShiftCount p k))

/-- R99: a state whose status is not Running is absorbing: there is no step from it, no run leaves it, and stepping it any number of times leaves
it, and so its status, as it is. -/
def Obligations.StoppedStatesAreAbsorbing : Prop :=
  ∀ s : State, s.status ≠ .running →
    s.stopped ∧ (∀ t, Reaches s t → t = s) ∧ (∀ t, Reaches s t → t.status = s.status) ∧ ∀ k, runFor k s = s

/-- R119: the result of a run for each outcome; a malformed Program has no run. -/
def Obligations.ResultOfEachOutcome : Prop :=
  (∀ s : State,
    (step s = .fault .halted → resultOf s = .output s.out) ∧
    (step s = .fault .budgetExhausted → resultOf s = .didNotHalt s.out) ∧
    (∀ f : Fault, step s = .fault f → f ≠ .halted → f ≠ .budgetExhausted → resultOf s = .failed f)) ∧
  (∀ (p : List Int) (a b c : Int) (n : Nat) (odd : OddFetch), ¬wellFormedLoad p →
    ∃ r, execute p a b c n odd = .noRun (.malformedProgram r))

/-! ## Control transfer -/

/-- R82: after a taken JNZ the machine halts exactly when the literal is at or past `LEN - 1`, odd or even; the lengths the rule names. -/
def Obligations.JumpOutOfTheProgramHalts : Prop :=
  ∀ (l : Cell) (s : State), s.prog ≠ [] → s.a ≠ 0 →
    ∃ t, exec (.jnz l) s = .next t ∧
      (step t.countStep = .fault .halted ↔ s.len ≤ l.val + 1) ∧
      (s.len = 2 → l ≠ 0 → step t.countStep = .fault .halted) ∧
      (s.len = 4 → 3 ≤ l.val → step t.countStep = .fault .halted) ∧
      (10 ≤ s.len → step t.countStep ≠ .fault .halted)

/-- R83: a taken JNZ with an odd literal inside the Program completes and is counted; the next step, past the halting and budget tests, faults or
executes the overlapping pair as `ODD_FETCH` says; a JNZ that is not taken has no such effect. The JNZ stands at an even address, or with overlap
at any address. -/
def Obligations.OddJumpInsideTheProgram : Prop :=
  ∀ (l op od : Cell) (s : State), s.pc + 1 < s.len → (s.pc % 2 = 0 ∨ s.oddFetch = .overlap) →
    s.stepLimit ≠ some s.steps → s.prog[s.pc]? = some 3 → s.prog[s.pc + 1]? = some l → l.val % 2 = 1 → l.val + 1 < s.len →
    s.prog[l.val]? = some op → s.prog[l.val + 1]? = some od →
    (s.a ≠ 0 →
      step s = .next { s with pc := l.val, steps := s.steps + 1 } ∧
      (s.stepLimit ≠ some (s.steps + 1) → s.oddFetch = .fault →
        step { s with pc := l.val, steps := s.steps + 1 } = .fault (.misalignedFetch l.val)) ∧
      (s.stepLimit ≠ some (s.steps + 1) → s.oddFetch = .overlap →
        step { s with pc := l.val, steps := s.steps + 1 } =
          commit (exec (decode op od) { s with pc := l.val, steps := s.steps + 1 }))) ∧
    (s.a = 0 → step s = .next { s with pc := s.pc + 2, steps := s.steps + 1 })

/-- A JNZ whose literal is its own address, with A not zero and no ceiling, repeats for ever and changes only the step count (43_jump.md). -/
def Obligations.SelfJumpNeverStops : Prop :=
  ∀ (s : State) (l : Cell), s.pc + 1 < s.len → s.prog[s.pc]? = some 3 → s.prog[s.pc + 1]? = some l →
    l.val = s.pc → s.a ≠ 0 → s.stepLimit = none → (s.pc % 2 = 0 ∨ s.oddFetch = .overlap) →
    ∀ k : Nat, runFor k s = { s with steps := s.steps + k } ∧ ¬(runFor k s).stopped

/-- An ADV of a positive A with a ref value of at least 1 completes and makes A strictly smaller, not below zero (43_jump.md section 3). -/
def Obligations.AdvLowersAPositiveA : Prop :=
  ∀ (o : Combo) (s : State), 0 < s.a → 1 ≤ evalCombo o s →
    ∃ t, exec (.adv o) s = .next t ∧ 0 ≤ t.a ∧ t.a < s.a

/-- At an even program counter the setting of `ODD_FETCH` has no effect on a step (70_reset_and_hazards.md section 7). -/
def Obligations.OddFetchIdleAtEvenPc : Prop :=
  ∀ (s : State) (odd : OddFetch), s.pc % 2 = 0 →
    step { s with oddFetch := odd } = mapNext (fun t => { t with oddFetch := odd }) (step s)

/-! ## Whole runs -/

/-- R14: the program counter never passes the larger of `LEN` and 7: every step keeps the bound, and every state of a launched run has it. -/
def Obligations.ProgramCounterStaysBounded : Prop :=
  (∀ s t : State, s.pcBounded → step s = .next t → t.pcBounded) ∧
  (∀ (p : List Int) (a b c : Int) (limit : Option Nat) (odd : OddFetch) (s t : State),
    launch p a b c limit odd = .next s → Reaches s t → t.pcBounded)

/-- R24: registers that start non-negative stay so; in such a state no combo operand is negative, so no decision about a negative operand is in
play, and no negative shift count can occur. -/
def Obligations.NonNegativeRegistersStaySo : Prop :=
  (∀ s t : State, s.nonNegative → step s = .next t → t.nonNegative) ∧
  (∀ (p : List Int) (a b c : Int) (limit : Option Nat) (odd : OddFetch) (s t : State),
    launch p a b c limit odd = .next s → 0 ≤ a → 0 ≤ b → 0 ≤ c → Reaches s t →
    t.nonNegative ∧ (∀ o : Combo, 0 ≤ evalCombo o t) ∧
      ∀ (q : Nat) (k : Int), step t ≠ .fault (.negativeShiftCount q k))

/-- R86: the output of a state is a prefix of the output of every later state of the run, and a step appends one value, at the end, exactly when it
executes OUT. -/
def Obligations.OutputGrowsOnlyAtItsEnd : Prop :=
  (∀ s t : State, Reaches s t → s.out <+: t.out) ∧
  (∀ s t : State, step s = .next t →
    if s.outNext then ∃ v : Cell, t.out = s.out ++ [v] else t.out = s.out)

/-- The output of a launched run is as long as the number of OUT instructions executed (44_output.md section 3). -/
def Obligations.OutputLengthCountsOuts : Prop :=
  (∀ (s : State) (k : Nat), (runFor k s).out.length = s.out.length + outsExecuted k s) ∧
  (∀ (p : List Int) (a b c : Int) (limit : Option Nat) (odd : OddFetch) (s : State) (k : Nat),
    launch p a b c limit odd = .next s → (runFor k s).out.length = outsExecuted k s)

/-- R39, R28: no run changes the Program, so every read of program memory gives what was loaded; nor does it change the run's parameters. -/
def Obligations.ProgramIsNeverWritten : Prop :=
  ∀ s t : State, Reaches s t →
    t.prog = s.prog ∧ (∀ addr n : Nat, t.memRead addr n = s.memRead addr n) ∧
      t.stepLimit = s.stepLimit ∧ t.oddFetch = s.oddFetch

/-- R19: the step count adds one for each instruction that commits and for nothing else; after `k` steps without a stop it is `k` higher. -/
def Obligations.StepsCountCommittedInstructions : Prop :=
  (∀ s t : State, step s = .next t → t.steps = s.steps + 1) ∧
  (∀ (s : State) (k : Nat), ¬(runFor k s).stopped → (runFor k s).steps = s.steps + k) ∧
  (∀ (s : State) (k : Nat), (runFor k s).steps ≤ s.steps + k) ∧
  (∀ (p : List Int) (a b c : Int) (limit : Option Nat) (odd : OddFetch) (s : State),
    launch p a b c limit odd = .next s → s.steps = 0)

/-- With a ceiling every run has stopped by the time its steps reach the ceiling (60_exceptions.md section 4). -/
def Obligations.CeilingEndsEveryRun : Prop :=
  ∀ (s : State) (n : Nat), s.stepLimit = some n → s.steps ≤ n → (runFor (n - s.steps) s).stopped

/-- A run with a larger ceiling, or with none, repeats the run with the smaller one as far as that ceiling goes, and goes on where the smaller ceiling
stops it, as the machine without a ceiling does (60_exceptions.md section 8). -/
def Obligations.LargerCeilingRepeatsTheRun : Prop :=
  (∀ (s : State) (n k : Nat) (larger : Option Nat), s.stepLimit = some n →
    (∀ m, larger = some m → n ≤ m) → s.steps + k ≤ n →
    runFor k { s with stepLimit := larger } = { runFor k s with stepLimit := larger }) ∧
  (∀ (s : State) (n : Nat) (larger : Option Nat), s.stepLimit = some n → larger ≠ some n →
    step s = .fault .budgetExhausted →
    step { s with stepLimit := larger } ≠ .fault .budgetExhausted ∧
      step { s with stepLimit := larger } =
        mapNext (fun t => { t with stepLimit := larger }) (step { s with stepLimit := none }))
end

