-- ==== Sys2Proof/Laws/Arith.lean ====
section
/-! SUPPORT. What the arithmetic operations compute, for callers to cite. -/

namespace Sys2Proof.Machine

theorem pow2_pos (k : Int) : 0 < pow2 k := by
  unfold pow2
  positivity

/-- A quotient by a power above the dividend's magnitude is zero. -/
theorem tdiv_pow2_of_log2_lt {a k : Int} (h : a.natAbs.log2 < k.toNat) : tdiv a (pow2 k) = 0 := by
  have hlt : a.natAbs < 2 ^ k.toNat :=
    lt_of_lt_of_le Nat.lt_log2_self (Nat.pow_le_pow_right (by omega) h)
  have hpow : pow2 k = ((2 ^ k.toNat : Nat) : Int) := rfl
  unfold tdiv
  split
  · exact Int.ediv_eq_zero_of_lt (by assumption) (by omega)
  · rw [Int.ediv_eq_zero_of_lt (by omega) (by omega)]
    rfl

/-- The shortcut changes no quotient. -/
theorem divPow2_eq_tdiv (a k : Int) : divPow2 a k = tdiv a (pow2 k) := by
  unfold divPow2
  split
  · exact (tdiv_pow2_of_log2_lt (by assumption)).symm
  · rfl

theorem mod8_eq_emod (a : Int) : mod8 a = a % 8 := by
  unfold mod8
  omega

theorem mod8_range (a : Int) : 0 ≤ mod8 a ∧ mod8 a ≤ 7 := by
  unfold mod8
  omega

/-- A value 0..7 is kept exactly by `toCell`. -/
theorem toCell_val {v : Int} (h : 0 ≤ v ∧ v ≤ 7) : ((toCell v).val : Int) = v := by
  have h8 : v.toNat % 8 = v.toNat := Nat.mod_eq_of_lt (by omega)
  have hval : (toCell v).val = v.toNat % 8 := rfl
  omega

theorem tdiv_nonneg {a b : Int} (ha : 0 ≤ a) (hb : 0 < b) : 0 ≤ tdiv a b := by
  unfold tdiv
  rw [if_pos ha]
  exact Int.ediv_nonneg ha hb.le

theorem ixor_nonneg {a b : Int} (ha : 0 ≤ a) (hb : 0 ≤ b) : 0 ≤ ixor a b := by
  cases a with
  | negSucc m => omega
  | ofNat m =>
    cases b with
    | negSucc n => omega
    | ofNat n => exact Int.natCast_nonneg _

end Sys2Proof.Machine
end

