-- ==== Sys2Proof/Laws/State.lean ====
section
/-! SUPPORT. What each update of the state leaves in each field, so that no later proof unfolds a record update. -/

namespace Sys2Proof.Machine

/-- `LEN` is the length of the Program; proofs speak of the length. -/
@[simp] theorem State.len_eq (s : State) : s.len = s.prog.length := rfl

section Advance
variable (s : State)

@[simp] theorem State.advance_a : s.advance.a = s.a := rfl
@[simp] theorem State.advance_b : s.advance.b = s.b := rfl
@[simp] theorem State.advance_c : s.advance.c = s.c := rfl
@[simp] theorem State.advance_pc : s.advance.pc = s.pc + 2 := rfl
@[simp] theorem State.advance_out : s.advance.out = s.out := rfl
@[simp] theorem State.advance_prog : s.advance.prog = s.prog := rfl
@[simp] theorem State.advance_steps : s.advance.steps = s.steps := rfl
@[simp] theorem State.advance_stepLimit : s.advance.stepLimit = s.stepLimit := rfl
@[simp] theorem State.advance_oddFetch : s.advance.oddFetch = s.oddFetch := rfl

@[simp] theorem State.countStep_a : s.countStep.a = s.a := rfl
@[simp] theorem State.countStep_b : s.countStep.b = s.b := rfl
@[simp] theorem State.countStep_c : s.countStep.c = s.c := rfl
@[simp] theorem State.countStep_pc : s.countStep.pc = s.pc := rfl
@[simp] theorem State.countStep_out : s.countStep.out = s.out := rfl
@[simp] theorem State.countStep_prog : s.countStep.prog = s.prog := rfl
@[simp] theorem State.countStep_steps : s.countStep.steps = s.steps + 1 := rfl
@[simp] theorem State.countStep_stepLimit : s.countStep.stepLimit = s.stepLimit := rfl
@[simp] theorem State.countStep_oddFetch : s.countStep.oddFetch = s.oddFetch := rfl

end Advance

section JumpAndEmit
variable (s : State) (n : Nat) (v : Cell)

@[simp] theorem State.jumpTo_a : (s.jumpTo n).a = s.a := rfl
@[simp] theorem State.jumpTo_b : (s.jumpTo n).b = s.b := rfl
@[simp] theorem State.jumpTo_c : (s.jumpTo n).c = s.c := rfl
@[simp] theorem State.jumpTo_pc : (s.jumpTo n).pc = n := rfl
@[simp] theorem State.jumpTo_out : (s.jumpTo n).out = s.out := rfl
@[simp] theorem State.jumpTo_prog : (s.jumpTo n).prog = s.prog := rfl
@[simp] theorem State.jumpTo_steps : (s.jumpTo n).steps = s.steps := rfl
@[simp] theorem State.jumpTo_stepLimit : (s.jumpTo n).stepLimit = s.stepLimit := rfl
@[simp] theorem State.jumpTo_oddFetch : (s.jumpTo n).oddFetch = s.oddFetch := rfl

@[simp] theorem State.emit_a : (s.emit v).a = s.a := rfl
@[simp] theorem State.emit_b : (s.emit v).b = s.b := rfl
@[simp] theorem State.emit_c : (s.emit v).c = s.c := rfl
@[simp] theorem State.emit_pc : (s.emit v).pc = s.pc := rfl
@[simp] theorem State.emit_out : (s.emit v).out = s.out ++ [v] := rfl
@[simp] theorem State.emit_prog : (s.emit v).prog = s.prog := rfl
@[simp] theorem State.emit_steps : (s.emit v).steps = s.steps := rfl
@[simp] theorem State.emit_stepLimit : (s.emit v).stepLimit = s.stepLimit := rfl
@[simp] theorem State.emit_oddFetch : (s.emit v).oddFetch = s.oddFetch := rfl

end JumpAndEmit

section Registers
variable (s : State) (r : Reg) (v : Int)

@[simp] theorem State.setReg_a_a : (s.setReg .a v).a = v := rfl
@[simp] theorem State.setReg_a_b : (s.setReg .a v).b = s.b := rfl
@[simp] theorem State.setReg_a_c : (s.setReg .a v).c = s.c := rfl
@[simp] theorem State.setReg_b_a : (s.setReg .b v).a = s.a := rfl
@[simp] theorem State.setReg_b_b : (s.setReg .b v).b = v := rfl
@[simp] theorem State.setReg_b_c : (s.setReg .b v).c = s.c := rfl
@[simp] theorem State.setReg_c_a : (s.setReg .c v).a = s.a := rfl
@[simp] theorem State.setReg_c_b : (s.setReg .c v).b = s.b := rfl
@[simp] theorem State.setReg_c_c : (s.setReg .c v).c = v := rfl
@[simp] theorem State.setReg_pc : (s.setReg r v).pc = s.pc := by cases r <;> rfl
@[simp] theorem State.setReg_out : (s.setReg r v).out = s.out := by cases r <;> rfl
@[simp] theorem State.setReg_prog : (s.setReg r v).prog = s.prog := by cases r <;> rfl
@[simp] theorem State.setReg_steps : (s.setReg r v).steps = s.steps := by cases r <;> rfl
@[simp] theorem State.setReg_stepLimit : (s.setReg r v).stepLimit = s.stepLimit := by cases r <;> rfl
@[simp] theorem State.setReg_oddFetch : (s.setReg r v).oddFetch = s.oddFetch := by cases r <;> rfl

/-- A write reaches the named register and no other (R10, R11). -/
theorem State.getReg_setReg (q : Reg) :
    (s.setReg r v).getReg q = if q = r then v else s.getReg q := by
  cases r <;> cases q <;> rfl

end Registers

end Sys2Proof.Machine
end

