-- ==== Sys2Proof/Laws/Ops.lean ====
section
/-! SUPPORT. One lemma for each shared operation: what it can do. -/

namespace Sys2Proof.Machine

@[simp] theorem State.atEnd_iff (s : State) : s.atEnd = true ↔ s.prog.length ≤ s.pc + 1 := by
  simp [State.atEnd]

@[simp] theorem State.budgetSpent_iff (s : State) : s.budgetSpent = true ↔ s.stepLimit = some s.steps := by
  simp [State.budgetSpent]

@[simp] theorem State.misaligned_iff (s : State) :
    s.misaligned = true ↔ s.pc % 2 = 1 ∧ s.oddFetch = .fault := by
  simp [State.misaligned]

@[simp] theorem State.launched_iff (s : State) : s.launched = true ↔ s.prog ≠ [] := by
  simp [State.launched]

/-- The tests before a fetch answer nothing exactly when none of them applies. -/
theorem State.stopBeforeFetch_eq_none (s : State) :
    s.stopBeforeFetch = none ↔
      s.atEnd = false ∧ s.budgetSpent = false ∧ s.misaligned = false := by
  unfold State.stopBeforeFetch
  cases s.atEnd <;> cases s.budgetSpent <;> cases s.misaligned <;> simp

/-- The tests before a fetch answer one of three stops, each under its own condition and with the tests before it passed. -/
theorem State.stopBeforeFetch_eq_some (s : State) (f : Fault) :
    s.stopBeforeFetch = some f ↔
      (s.atEnd = true ∧ f = .halted) ∨
      (s.atEnd = false ∧ s.budgetSpent = true ∧ f = .budgetExhausted) ∨
      (s.atEnd = false ∧ s.budgetSpent = false ∧ s.misaligned = true ∧ f = .misalignedFetch s.pc) := by
  unfold State.stopBeforeFetch
  cases s.atEnd <;> cases s.budgetSpent <;> cases s.misaligned <;> simp [eq_comm]

/-- A commit that answers a next state counted one step of a completed instruction. -/
theorem commit_eq_next {o : Host.Outcome State Fault Refusal} {t : State} :
    commit o = .next t ↔ ∃ u, o = .next u ∧ t = u.countStep := by
  cases o <;> simp [commit, eq_comm]

/-- A commit that answers a fault passed on the instruction's fault. -/
theorem commit_eq_fault {o : Host.Outcome State Fault Refusal} {f : Fault} :
    commit o = .fault f ↔ o = .fault f := by
  cases o <;> simp [commit]

/-- A commit that answers a refusal passed on the instruction's refusal. -/
theorem commit_eq_refused {o : Host.Outcome State Fault Refusal} {r : Refusal} :
    commit o = .refused r ↔ o = .refused r := by
  cases o <;> simp [commit]

/-- A read inside the Program gives the cells in address order. -/
theorem State.memRead_two {s : State} {addr : Nat} (h : addr + 2 ≤ s.prog.length) :
    s.memRead addr 2 = some [s.prog[addr], s.prog[addr + 1]] := by
  unfold State.memRead State.len
  rw [if_pos h]
  congr 1
  apply List.ext_getElem
  · simp; omega
  · intro i h1 _
    have hi : i < 2 := by simp at h1; omega
    match i, hi with
    | 0, _ => simp
    | 1, _ => simp

/-- Away from the end of the Program the fetch reads the two cells at the program counter. -/
theorem State.fetchPair_eq {s : State} (h : s.pc + 2 ≤ s.prog.length) :
    s.fetchPair = some (s.prog[s.pc], s.prog[s.pc + 1]) := by
  unfold State.fetchPair
  rw [State.memRead_two h]

/-- At the end of the Program there is no pair to fetch. -/
theorem State.fetchPair_eq_none {s : State} (h : s.prog.length < s.pc + 2) : s.fetchPair = none := by
  unfold State.fetchPair State.memRead State.len
  rw [if_neg (by omega)]

theorem State.fetchInstr_eq_some {s : State} {i : Instr} :
    s.fetchInstr = some i ↔ ∃ op od, s.fetchPair = some (op, od) ∧ i = decode op od := by
  unfold State.fetchInstr
  cases s.fetchPair with
  | none => simp
  | some p => obtain ⟨op, od⟩ := p; simp [eq_comm]

/-- The cell form of a memory from address `n` on is canonical, and its first address is `n`. -/
theorem Memory.wf_cellsFrom (cells : List Cell) (n : Nat) : Memory.wf (cellsFrom n cells) = true := by
  induction cells generalizing n with
  | nil => rfl
  | cons v rest ih =>
    have hv : v.val % 256 < 8 := by omega
    cases rest with
    | nil => simp [cellsFrom, Memory.wf, hv]
    | cons w rest =>
      have := ih (n + 1)
      simp only [cellsFrom] at this ⊢
      simp [Memory.wf, this, hv]

/-- The memory of every state, the one before a launch among them, is in canonical form; so every operation keeps it. -/
theorem State.memory_wf (s : State) : Memory.wf s.memory = true := Memory.wf_cellsFrom _ _

/-- Placing a pair makes the Program long enough for the fetch. -/
theorem placePair_length (cells : List Cell) (addr : Nat) (op od : Cell) :
    (placePair cells addr op od).length = max cells.length (addr + 2 + addr % 2) := by
  simp [placePair]
  omega

end Sys2Proof.Machine
end

