-- ==== Sys2Proof/Laws/Exec.lean ====
section
/-! SUPPORT. What an instruction and a step can do: one lemma for each meaning, and the inversion of a step. -/

namespace Sys2Proof.Machine

/-- The divide family with a ref value of at least zero. -/
theorem divide_of_nonneg {d : Reg} {o : Combo} {s : State} (h : 0 ≤ evalCombo o s) :
    divide d o s = .next (s.setReg d (tdiv s.a (pow2 (evalCombo o s)))).advance := by
  unfold divide
  rw [if_neg (by omega), divPow2_eq_tdiv]

/-- The divide family with a negative ref value. -/
theorem divide_of_neg {d : Reg} {o : Combo} {s : State} (h : evalCombo o s < 0) :
    divide d o s = .fault (.negativeShiftCount s.pc (evalCombo o s)) := by
  unfold divide
  rw [if_pos h]
  rfl

/-- No instruction answers a refusal. -/
theorem exec_ne_refused (i : Instr) (s : State) (r : Refusal) : exec i s ≠ .refused r := by
  have hdiv : ∀ d o, divide d o s ≠ .refused r := by
    intro d o
    by_cases h : evalCombo o s < 0
    · simp [divide_of_neg h]
    · simp [divide_of_nonneg (not_lt.mp h)]
  cases i with
  | adv o => exact hdiv .a o
  | bdv o => exact hdiv .b o
  | cdv o => exact hdiv .c o
  | bxl l => simp [exec, execBxl]
  | bst o => simp [exec, execBst]
  | jnz l => simp [exec, execJnz]
  | bxc x => simp [exec, execBxc]
  | out o => simp [exec, execOut]
  | reservedAdv7 => simp [exec, execReservedAdv7, raiseInvalidOperand, raise]
  | reservedBst7 => simp [exec, execReservedBst7, raiseInvalidOperand, raise]
  | reservedOut7 => simp [exec, execReservedOut7, raiseInvalidOperand, raise]
  | reservedBdv7 => simp [exec, execReservedBdv7, raiseInvalidOperand, raise]
  | reservedCdv7 => simp [exec, execReservedCdv7, raiseInvalidOperand, raise]

/-- Everything an instruction that completes can have done: one of six updates of the state. -/
theorem exec_next_cases {i : Instr} {s t : State} (h : exec i s = .next t) :
    (∃ d o, (i = .adv o ∧ d = .a ∨ i = .bdv o ∧ d = .b ∨ i = .cdv o ∧ d = .c) ∧ 0 ≤ evalCombo o s ∧
      t = (s.setReg d (tdiv s.a (pow2 (evalCombo o s)))).advance) ∨
    (∃ l, i = .bxl l ∧ t = (s.setReg .b (ixor s.b (evalLiteral l))).advance) ∨
    (∃ o, i = .bst o ∧ t = (s.setReg .b (mod8 (evalCombo o s))).advance) ∨
    (∃ l, i = .jnz l ∧ t = if s.a ≠ 0 then s.jumpTo l.val else s.advance) ∨
    (∃ x, i = .bxc x ∧ t = (s.setReg .b (ixor s.b s.c)).advance) ∨
    (∃ o, i = .out o ∧ t = (s.emit (toCell (mod8 (evalCombo o s)))).advance) := by
  have hdiv : ∀ d o, divide d o s = .next t →
      0 ≤ evalCombo o s ∧ t = (s.setReg d (tdiv s.a (pow2 (evalCombo o s)))).advance := by
    intro d o hd
    by_cases hk : evalCombo o s < 0
    · simp [divide_of_neg hk] at hd
    · rw [divide_of_nonneg (not_lt.mp hk)] at hd
      exact ⟨not_lt.mp hk, (Host.Outcome.next.inj hd).symm⟩
  cases i with
  | adv o => exact .inl ⟨.a, o, .inl ⟨rfl, rfl⟩, hdiv .a o h⟩
  | bdv o => exact .inl ⟨.b, o, .inr (.inl ⟨rfl, rfl⟩), hdiv .b o h⟩
  | cdv o => exact .inl ⟨.c, o, .inr (.inr ⟨rfl, rfl⟩), hdiv .c o h⟩
  | bxl l => exact .inr (.inl ⟨l, rfl, (Host.Outcome.next.inj h).symm⟩)
  | bst o => exact .inr (.inr (.inl ⟨o, rfl, (Host.Outcome.next.inj h).symm⟩))
  | jnz l =>
    refine .inr (.inr (.inr (.inl ⟨l, rfl, ?_⟩)))
    rw [← Host.Outcome.next.inj h]
    simp [State.jumpTaken]
  | bxc x => exact .inr (.inr (.inr (.inr (.inl ⟨x, rfl, (Host.Outcome.next.inj h).symm⟩))))
  | out o => exact .inr (.inr (.inr (.inr (.inr ⟨o, rfl, (Host.Outcome.next.inj h).symm⟩))))
  | reservedAdv7 => nomatch h
  | reservedBst7 => nomatch h
  | reservedOut7 => nomatch h
  | reservedBdv7 => nomatch h
  | reservedCdv7 => nomatch h

/-- Everything an instruction that faults can have raised. -/
theorem exec_fault_cases {i : Instr} {s : State} {f : Fault} (h : exec i s = .fault f) :
    (∃ o, (i = .adv o ∨ i = .bdv o ∨ i = .cdv o) ∧ evalCombo o s < 0 ∧
      f = .negativeShiftCount s.pc (evalCombo o s)) ∨
    (i.isReserved = true ∧ f = .invalidOperand s.pc i.opcode) := by
  have hdiv : ∀ d o, divide d o s = .fault f →
      evalCombo o s < 0 ∧ f = .negativeShiftCount s.pc (evalCombo o s) := by
    intro d o hd
    by_cases hk : evalCombo o s < 0
    · rw [divide_of_neg hk] at hd
      exact ⟨hk, (Host.Outcome.fault.inj hd).symm⟩
    · simp [divide_of_nonneg (not_lt.mp hk)] at hd
  cases i with
  | adv o => exact .inl ⟨o, .inl rfl, hdiv .a o h⟩
  | bdv o => exact .inl ⟨o, .inr (.inl rfl), hdiv .b o h⟩
  | cdv o => exact .inl ⟨o, .inr (.inr rfl), hdiv .c o h⟩
  | bxl l => nomatch h
  | bst o => nomatch h
  | jnz l => nomatch h
  | bxc x => nomatch h
  | out o => nomatch h
  | reservedAdv7 => exact .inr ⟨rfl, (Host.Outcome.fault.inj h).symm⟩
  | reservedBst7 => exact .inr ⟨rfl, (Host.Outcome.fault.inj h).symm⟩
  | reservedOut7 => exact .inr ⟨rfl, (Host.Outcome.fault.inj h).symm⟩
  | reservedBdv7 => exact .inr ⟨rfl, (Host.Outcome.fault.inj h).symm⟩
  | reservedCdv7 => exact .inr ⟨rfl, (Host.Outcome.fault.inj h).symm⟩

/-- A step that answers a next state fetched an instruction, completed it and counted it. -/
theorem step_next_cases {s t : State} (h : step s = .next t) :
    s.launched = true ∧ s.stopBeforeFetch = none ∧
      ∃ i u, s.fetchInstr = some i ∧ exec i s = .next u ∧ t = u.countStep := by
  unfold step at h
  split at h
  · split at h
    · simp [raise] at h
    · split at h
      · obtain ⟨u, hu, ht⟩ := commit_eq_next.mp h
        exact ⟨‹_›, ‹_›, _, u, ‹_›, hu, ht⟩
      · simp [raise] at h
  · simp at h

/-- A step that answers a fault met a test before the fetch, or passed on the fault of the instruction it fetched; a fetch that finds no pair is
ruled out by the halting test. -/
theorem step_fault_cases {s : State} {f : Fault} (h : step s = .fault f) :
    s.launched = true ∧
      (s.stopBeforeFetch = some f ∨
        s.stopBeforeFetch = none ∧ ∃ i, s.fetchInstr = some i ∧ exec i s = .fault f) := by
  unfold step at h
  split at h
  · refine ⟨‹_›, ?_⟩
    split at h
    · exact .inl (by simp_all [raise])
    · split at h
      · exact .inr ⟨‹_›, _, ‹_›, commit_eq_fault.mp h⟩
      · next hstop _ hnone =>
        obtain ⟨hend, -, -⟩ := s.stopBeforeFetch_eq_none.mp hstop
        have hlen : s.pc + 2 ≤ s.prog.length := by
          have hlen : ¬ s.prog.length ≤ s.pc + 1 := fun hle => by
            simp [s.atEnd_iff.mpr hle] at hend
          omega
        simp [State.fetchInstr, State.fetchPair_eq hlen] at hnone
  · simp at h

/-- When the tests before a fetch are passed, a step is the fetched instruction's outcome, committed. -/
theorem step_of_fetchInstr {s : State} {i : Instr} (hl : s.launched = true)
    (hs : s.stopBeforeFetch = none) (hi : s.fetchInstr = some i) : step s = commit (exec i s) := by
  unfold step
  rw [if_pos hl, hs, hi]

end Sys2Proof.Machine
end

