-- ==== Sys2Proof/Laws/PerInstr.lean ====
section
/-! SUPPORT. A fact about every instruction as syntax: its word has six bits, with its opcode in bits 5..3 (R43). -/

namespace Sys2Proof.Laws.SixBitWord

/-- The word of `i` is below 64 and its upper half is the opcode of `i`. -/
def Statement (i : Instr) : Prop := encodeWord i < 64 ∧ encodeWord i / 8 = i.opcode.val

theorem of_word (i : Instr) : Statement i := by
  unfold Statement encodeWord
  omega

theorem adv (o : Combo) : Statement (.adv o) := of_word _
theorem bxl (l : Cell) : Statement (.bxl l) := of_word _
theorem bst (o : Combo) : Statement (.bst o) := of_word _
theorem jnz (l : Cell) : Statement (.jnz l) := of_word _
theorem bxc (x : Cell) : Statement (.bxc x) := of_word _
theorem out (o : Combo) : Statement (.out o) := of_word _
theorem bdv (o : Combo) : Statement (.bdv o) := of_word _
theorem cdv (o : Combo) : Statement (.cdv o) := of_word _
theorem reservedAdv7 : Statement .reservedAdv7 := of_word _
theorem reservedBst7 : Statement .reservedBst7 := of_word _
theorem reservedOut7 : Statement .reservedOut7 := of_word _
theorem reservedBdv7 : Statement .reservedBdv7 := of_word _
theorem reservedCdv7 : Statement .reservedCdv7 := of_word _

end Sys2Proof.Laws.SixBitWord
end

