-- ==== Sys2Proof/Tests/Slice0.lean ====
section
/-! SUPPORT. Tests, with expected results from spec/95_test_vectors.md (its vector named in each comment) or written out from the encoding tables;
and for each statement with hypotheses a witness that meets them. -/

namespace Sys2Proof.Tests

open Sys2Proof Sys2Proof.Machine

/-- A launched machine at address 0 with the given Program and registers, no ceiling, `ODD_FETCH = fault`. -/
def machine (prog : List Cell) (a b c : Int) : State where
  a := a
  b := b
  c := c
  pc := 0
  out := []
  prog := prog
  steps := 0
  stepLimit := none
  oddFetch := .fault

/-- The next state of one step, if there is one. -/
def after (s : State) : Option State :=
  match step s with
  | .next t => some t
  | .fault _ => none
  | .refused _ => none

/-- The fault of one step, if there is one. -/
def stop (s : State) : Option Fault :=
  match step s with
  | .next _ => none
  | .fault f => some f
  | .refused _ => none

/-! ## Well-formedness: the check refuses an ill-formed term for each combo-mode instruction -/

theorem test_wf_refuses_combo_constant_above_three :
    (Instr.adv (.lit 4)).wf = false ∧ (Instr.bst (.lit 7)).wf = false ∧ (Instr.out (.lit 5)).wf = false ∧
      (Instr.bdv (.lit 6)).wf = false ∧ (Instr.cdv (.lit 4)).wf = false := by decide

theorem test_wf_accepts_what_an_encoding_has :
    (Instr.adv (.lit 3)).wf = true ∧ (Instr.bxl 7).wf = true ∧ (Instr.bxc 7).wf = true ∧
      (Instr.cdv (.reg .c)).wf = true ∧ Instr.reservedCdv7.wf = true := by decide

/-! ## Decoding: words written out from 30_encoding.md sections 3 to 5 -/

theorem test_decode_divide_family :
    decodeTableWord 8 0b000011 = some (.adv (.lit 3)) ∧ decodeTableWord 8 0b110110 = some (.bdv (.reg .c)) ∧
      decodeTableWord 8 0b111101 = some (.cdv (.reg .b)) := by decide

theorem test_decode_bitwise_family :
    decodeTableWord 8 0b001111 = some (.bxl 7) ∧ decodeTableWord 8 0b010100 = some (.bst (.reg .a)) ∧
      decodeTableWord 8 0b100000 = some (.bxc 0) := by decide

theorem test_decode_jump_and_output :
    decodeTableWord 8 0b011101 = some (.jnz 5) ∧ decodeTableWord 8 0b101100 = some (.out (.reg .a)) := by decide

theorem test_decode_reserved :
    decodeTableWord 8 0b000111 = some .reservedAdv7 ∧ decodeTableWord 8 0b010111 = some .reservedBst7 ∧
      decodeTableWord 8 0b101111 = some .reservedOut7 ∧ decodeTableWord 8 0b110111 = some .reservedBdv7 ∧
      decodeTableWord 8 0b111111 = some .reservedCdv7 := by decide

theorem test_decode_rejects_a_seventh_bit : decodeWord 64 = .error (.strayBits 64) := by rfl

theorem test_decode_rejects_half_a_pair : decodeCells [3] = .error .noFullPair := by rfl

/-- 30_encoding.md rule R53's example, and the reserved spelling of program P7. -/
theorem test_assembler_example :
    assembleText [["adv", "3"], ["out", "A"], ["jnz", "0"]] = some [0, 3, 5, 4, 3, 0] ∧
      assembleText [["OUT", "0"], ["bst", "7!"]] = some [5, 0, 2, 7] ∧ assembleText [["bxc"]] = some [4, 0] := by
  decide

/-! ## One step of each instruction -/

/-- V-D10: truncation, not floor. -/
theorem test_adv_truncates :
    after (machine [0, 3] (-9) 0 0) = some { machine [0, 3] (-1) 0 0 with pc := 2, steps := 1 } := by decide

/-- V-D15: a huge exponent. -/
theorem test_adv_huge_exponent :
    (after (machine [0, 6] 1000 0 (10 ^ 30))).map State.a = some 0 := by decide

/-- V-D16: A is kept. -/
theorem test_bdv_keeps_a :
    after (machine [6, 6] 1000 0 4) = some { machine [6, 6] 1000 62 4 with pc := 2, steps := 1 } := by decide

/-- V-D18: the old B is the exponent. -/
theorem test_bdv_reads_old_b : (after (machine [6, 5] 1000 3 0)).map State.b = some 125 := by decide

/-- V-D20: the old C is the exponent. -/
theorem test_cdv_reads_old_c : (after (machine [7, 6] 1000 0 1)).map State.c = some 500 := by decide

/-- V-D26: a negative exponent faults. -/
theorem test_cdv_negative_exponent :
    stop (machine [7, 6] 8 0 (-3)) = some (.negativeShiftCount 0 (-3)) := by decide

/-- V-B4: the high digits are kept. -/
theorem test_bxl_keeps_high_digits :
    (after (machine [1, 1] 0 (2 ^ 70 + 1) 0)).map State.b = some (2 ^ 70) := by decide

/-- V-B15: two's complement. -/
theorem test_bxl_negative : (after (machine [1, 7] 0 (-1) 0)).map State.b = some (-8) := by decide

/-- V-B7: a large register, exactly. -/
theorem test_bst_large : (after (machine [2, 4] (2 ^ 64 + 13) 0 0)).map State.b = some 5 := by decide

/-- V-B19: the remainder of a negative value. -/
theorem test_bst_negative : (after (machine [2, 6] 0 0 (-9))).map State.b = some 7 := by decide

/-- V-B10: operand 7 is legal and ignored. -/
theorem test_bxc_operand_seven :
    after (machine [4, 7] 0 5 3) = some { machine [4, 7] 0 6 3 with pc := 2, steps := 1 } := by decide

/-- V-B17: two negative operands. -/
theorem test_bxc_two_negatives : (after (machine [4, 0] 0 (-6) (-3))).map State.b = some 7 := by decide

/-- V-J4: the whole value of A is tested. -/
theorem test_jnz_taken :
    after (machine [3, 0] (2 ^ 200) 0 0) = some { machine [3, 0] (2 ^ 200) 0 0 with pc := 0, steps := 1 } := by decide

/-- V-J7: not taken, literal 7. -/
theorem test_jnz_not_taken : (after (machine [3, 7] 0 0 0)).map State.pc = some 2 := by decide

/-- V-O2: the register is reduced only in what is emitted. -/
theorem test_out_large :
    after (machine [5, 5] 0 (2 ^ 80 + 7) 0) =
      some { machine [5, 5] 0 (2 ^ 80 + 7) 0 with out := [7], pc := 2, steps := 1 } := by decide

/-- V-O5: a negative value emits its non-negative residue. -/
theorem test_out_negative : (after (machine [5, 4] (-1) 0 0)).map State.out = some [7] := by decide

/-- V-D21, V-B14, V-O6, V-D22, V-D23: the reserved pairs. -/
theorem test_reserved_pairs :
    stop (machine [0, 7] 1 2 3) = some (.invalidOperand 0 0) ∧
      stop (machine [2, 7] 1 2 3) = some (.invalidOperand 0 2) ∧
      stop (machine [5, 7] 1 2 3) = some (.invalidOperand 0 5) ∧
      stop (machine [6, 7] 1 2 3) = some (.invalidOperand 0 6) ∧
      stop (machine [7, 7] 1 2 3) = some (.invalidOperand 0 7) := by decide

/-! ## Launch, halting, budget and priority -/

/-- V-L1 to V-L5. -/
theorem test_load_check :
    loadCheck [] = some .emptyProgram ∧ loadCheck [0, 3, 5] = some (.oddLength 3) ∧
      loadCheck [0, 8] = some (.cellOutOfRange 1 8) ∧ loadCheck [0, -1] = some (.cellOutOfRange 1 (-1)) ∧
      loadCheck [9, 8, 1] = some (.oddLength 3) ∧ loadCheck [0, 7] = none := by decide

/-- V-H1: the last pair executes, and the machine halts behind it. -/
theorem test_halts_behind_the_last_pair :
    (after (machine [1, 0] 0 0 0)).map State.pc = some 2 ∧
      stop { machine [1, 0] 0 0 0 with pc := 2 } = some .halted := by decide

/-- V-K3, V-P1, V-P3 and V-P4: the order of the tests. -/
theorem test_priority :
    stop { machine [0, 3, 5, 4, 3, 0] 729 0 0 with stepLimit := some 0 } = some .budgetExhausted ∧
      stop { machine [5, 0, 2, 7] 0 0 0 with pc := 2, steps := 1, stepLimit := some 1 } = some .budgetExhausted ∧
      stop { machine [3, 1, 5, 4] 1 0 0 with pc := 1, steps := 1, stepLimit := some 1 } = some .budgetExhausted ∧
      stop { machine [3, 7] 1 0 0 with pc := 7, steps := 1, stepLimit := some 1 } = some .halted := by decide

/-- V-J8 and V-J9: an odd address inside the Program, both settings. -/
theorem test_odd_fetch :
    stop { machine [3, 1, 5, 4] 1 0 0 with pc := 1 } = some (.misalignedFetch 1) ∧
      (after { machine [3, 1, 5, 4] 1 0 0 with pc := 1, oddFetch := .overlap }).map State.b = some 5 := by decide

theorem test_reset_has_no_step : step State.reset = .refused .notLaunched := by rfl

theorem test_placed_word_runs_first_after_reset :
    after (State.reset.withFetchWord 8 0b101011) =
      some { State.reset with prog := [5, 3], out := [3], pc := 2, steps := 1 } := by decide

/-! ## Witnesses: for each statement with hypotheses, values that meet them -/

theorem witness_LaunchChecksProgramInOrder :
    ([] : List Int).length = 0 ∧ ([0, 3, 5] : List Int).length % 2 = 1 ∧
      (([0, -1] : List Int).length ≠ 0 ∧ ([0, -1] : List Int).length % 2 = 0 ∧ ([0, -1] : List Int)[1]? = some (-1) ∧
        ¬((0 : Int) ≤ -1 ∧ (-1 : Int) ≤ 7) ∧ ∀ j, j < 1 → ([0, -1] : List Int)[j]? = some 0) := by
  refine ⟨rfl, rfl, by decide, rfl, rfl, by decide, ?_⟩
  intro j hj
  obtain rfl : j = 0 := by omega
  rfl

/-- The ceiling 0; and, with no ceiling, a divide whose ref value is exactly 0, and a literal 7 that is no reserved pair. -/
theorem witness_LaunchHoldsTheArguments :
    (wellFormedLoad [0, 7] ∧ (some 0 : Option Nat) = some 0) ∧
    (wellFormedLoad [0, 5] ∧ (none : Option Nat) ≠ some 0 ∧ ([0, 5] : List Int)[0]? = some ((0 : Cell).val : Int) ∧
      ([0, 5] : List Int)[1]? = some ((5 : Cell).val : Int) ∧ (5 : Cell) ≠ 7 ∧
      combo 5 (launchState [0, 5] 8 0 0 none .fault) = some 0) ∧
    (wellFormedLoad [1, 7] ∧ ([1, 7] : List Int)[0]? = some ((1 : Cell).val : Int) ∧
      ¬((1 : Cell) = 0 ∨ (1 : Cell) = 2 ∨ (1 : Cell) = 5 ∨ (1 : Cell) = 6 ∨ (1 : Cell) = 7)) := by decide

/-- R56 test 4 at the launch state of V-L6 (log 5). -/
theorem test_launch_status_of_reserved_first_pair :
    (launchState [0, 7] 0 0 0 none .fault).status = .fault .invalidOperand := by decide

theorem witness_DecodeOfEncodeGivesTheInstruction : (Instr.adv (.lit 3)).wf = true := by decide

theorem witness_EveryPairHasOneInstruction : 64 ≤ 64 ∧ decodeTableWord 8 64 = none := by decide

theorem witness_DisassembleOfAssemble :
    ∀ i ∈ [Instr.adv (.lit 3), .out (.reg .a), .jnz 0], i.wf = true := by decide

theorem witness_PlacedWordRunsNext :
    63 < 64 ∧ stop ({ machine [3, 1] 1 0 0 with pc := 5, stepLimit := some 0 }.withFetchWord 8 63) =
      some (.invalidOperand 5 7) := by decide

theorem witness_TruncatingQuotientIsUnique :
    (0 : Int) < 8 ∧ (-9 : Int) = -1 * 8 + -1 ∧ -8 < (-1 : Int) ∧ (-1 : Int) < 8 ∧ (-1 : Int) < 0 ∧ (-9 : Int) < 0 := by
  decide

theorem witness_XorWorksDigitByDigit :
    ∀ i : Nat, digit 0 i = if digit 0 i = digit 0 i then 0 else 1 := by
  intro i
  simp [digit]

theorem witness_DivisionAsShiftOfMagnitude : (0 : Int) ≤ 0 ∧ (-9 : Int) < 0 ∧ ¬(pow2 3 ∣ (-9 : Int)) := by decide

theorem witness_LargeExponentGivesZero :
    (0 : Int) ≤ 3 ∧ -pow2 3 < (-7 : Int) ∧ (-7 : Int) < pow2 3 ∧ (0 : Int) ≤ 0 := by decide

/-- The three divides: a ref value of zero, a negative one, an operand cell, a dividend of zero. -/
theorem witness_divides :
    0 ≤ evalCombo (.lit 0) (machine [0, 0] 0 0 0) ∧ evalCombo (.reg .b) (machine [0, 5] 8 (-1) 0) < 0 ∧
      comboDecode 5 = some (.reg .b) ∧ 0 ≤ (machine [0, 4] 0 0 0).a := by decide

theorem witness_BxlXorsLiteralIntoB :
    3 ≤ 3 ∧ 0 ≤ (machine [1, 7] 0 0 0).b ∧ (machine [1, 7] 0 (-1) 0).b < 0 := by decide

theorem witness_BstLoadsRemainderIntoB : (3 : Cell).val ≤ 3 ∧ comboDecode 3 = some (.lit 3) := by decide

theorem witness_BxcXorsCIntoB :
    (machine [4, 0] 0 5 0).c = 0 ∧ (machine [4, 0] 0 77 77).b = (machine [4, 0] 0 77 77).c := by decide

theorem witness_JnzTestsTheWholeOfA : (machine [3, 0] (-1) 0 0).a ≠ 0 ∧ (machine [3, 0] 0 0 0).a = 0 := by decide

theorem witness_OutEmitsRemainder : (3 : Cell).val ≤ 3 ∧ comboDecode 4 = some (.reg .a) := by decide

/-- A JNZ that is not taken meets every premise of the frame at once. -/
theorem witness_InstructionFrame :
    exec (.jnz 0) (machine [3, 0] 0 0 0) = .next { machine [3, 0] 0 0 0 with pc := 2 } ∧
      (∀ o, Instr.jnz 0 ≠ .adv o) ∧ (∀ o, Instr.jnz 0 ≠ .bxl o) ∧ (∀ o, Instr.jnz 0 ≠ .bst o) ∧
      (∀ o, Instr.jnz 0 ≠ .bxc o) ∧ (∀ o, Instr.jnz 0 ≠ .bdv o) ∧ (∀ o, Instr.jnz 0 ≠ .cdv o) ∧
      (∀ o, Instr.jnz 0 ≠ .out o) ∧ ∀ l, Instr.jnz 0 = .jnz l → (machine [3, 0] 0 0 0).a = 0 :=
  ⟨rfl, nofun, nofun, nofun, nofun, nofun, nofun, nofun, fun _ _ => rfl⟩

/-- A pair that completes with B and C zero, the pair that faults, and a pair whose operand is not 4. -/
theorem witness_BitwiseFamilyLeavesA :
    exec (decode 1 7) (machine [1, 7] 0 0 0) = .next { machine [1, 7] 0 7 0 with pc := 2 } ∧
      0 ≤ (machine [1, 7] 0 0 0).b ∧ 0 ≤ (machine [1, 7] 0 0 0).c ∧
      exec (decode 2 7) (machine [2, 7] 0 0 0) = .fault (.invalidOperand 0 2) ∧
      ¬((2 : Cell) = 2 ∧ (5 : Cell) = 7) ∧ ¬((2 : Cell) = 2 ∧ (5 : Cell) = 4) :=
  ⟨rfl, by decide, by decide, rfl, by decide, by decide⟩

theorem witness_MemReadGivesCellsInOrder :
    1 + 1 ≤ (machine [3, 0] 0 0 0).len ∧ (0 : Nat) < 1 ∧ (machine [3, 0] 0 0 0).len < 1 + 2 := by decide

theorem witness_FetchReadsOpcodeThenOperand :
    (machine [3, 0] 0 0 0).pc + 1 < (machine [3, 0] 0 0 0).len ∧
      { machine [3, 0] 0 0 0 with pc := 1 }.len ≤ { machine [3, 0] 0 0 0 with pc := 1 }.pc + 1 := by decide

/-- One state for the instruction that completes, one for the instruction that faults; the parity premise holds by either side. -/
theorem witness_StepRunsTheDecodedInstruction :
    ((machine [1, 7] 0 29 0).pc + 1 < (machine [1, 7] 0 29 0).len ∧ (machine [1, 7] 0 29 0).stepLimit ≠ some 0 ∧
      (machine [1, 7] 0 29 0).pc % 2 = 0 ∧ (machine [1, 7] 0 29 0).prog[0]? = some 1 ∧
      (machine [1, 7] 0 29 0).prog[1]? = some 7 ∧
      exec (decode 1 7) (machine [1, 7] 0 29 0) = .next { machine [1, 7] 0 26 0 with pc := 2 }) ∧
    (exec (decode 0 7) { machine [3, 0, 7, 0] 1 0 0 with pc := 1, oddFetch := .overlap } = .fault (.invalidOperand 1 0) ∧
      { machine [3, 0, 7, 0] 1 0 0 with pc := 1, oddFetch := .overlap }.prog[1]? = some 0 ∧
      { machine [3, 0, 7, 0] 1 0 0 with pc := 1, oddFetch := .overlap }.prog[2]? = some 7) :=
  ⟨⟨by decide, by decide, rfl, rfl, rfl, rfl⟩, rfl, rfl, rfl⟩

/-- A running state, and a stopped one for each value of `status`. -/
theorem witness_StepFollowsStatus :
    (machine [0, 3] 8 0 0).status = .running ∧ { machine [0, 3] 8 0 0 with pc := 1 }.status = .halted ∧
      { machine [0, 3] 8 0 0 with stepLimit := some 0 }.status = .budgetExhausted ∧
      { machine [0, 3, 0, 3] 8 0 0 with pc := 1 }.status = .fault .misalignedFetch ∧
      (machine [0, 7] 8 0 0).status = .fault .invalidOperand ∧
      (machine [0, 5] 8 (-1) 0).status = .fault .negativeShiftCount := by decide

theorem witness_HaltsExactlyWithoutFullPair :
    { machine [3, 0] 1 0 0 with pc := 1 }.prog ≠ [] ∧ stop { machine [3, 0] 1 0 0 with pc := 1 } = some .halted ∧
      stop (machine [3, 0] 1 0 0) = none := by decide

theorem witness_BudgetStopsAtTheCeiling :
    stop { machine [3, 0] 1 0 0 with steps := 4, stepLimit := some 4 } = some .budgetExhausted ∧
      launch [3, 0] 1 0 0 (some 0) .fault = .next { machine [3, 0] 1 0 0 with stepLimit := some 0 } ∧
      (machine [3, 0] 1 0 0).stepLimit = none ∧
      (∀ n, ({ machine [3, 0] 1 0 0 with stepLimit := some 1 } : State).stepLimit = some n → 0 ≤ n) ∧
      step { machine [3, 0] 1 0 0 with stepLimit := some 1 } =
        .next { machine [3, 0] 1 0 0 with stepLimit := some 1, steps := 1 } :=
  ⟨by decide, rfl, rfl, fun _ _ => Nat.zero_le _, rfl⟩

theorem witness_MisalignedFetchExactly :
    stop { machine [3, 1, 5, 4] 1 0 0 with pc := 1 } = some (.misalignedFetch 1) ∧
      (machine [3, 1, 5, 4] 1 0 0).pc % 2 = 0 ∧
      exec (.jnz 1) (machine [3, 1, 5, 4] 1 0 0) = .next { machine [3, 1, 5, 4] 1 0 0 with pc := 1 } :=
  ⟨by decide, rfl, rfl⟩

theorem witness_InvalidOperandExactly :
    (machine [5, 7] 0 0 0).readyToFetch ∧ (machine [5, 7] 0 0 0).fetchPair = some (5, 7) ∧
      wellFormedLoad [3, 4, 0, 7] ∧ 2 % 2 = 0 ∧ ([3, 4, 0, 7] : List Int)[2]? = some ((0 : Cell).val : Int) ∧
      ([3, 4, 0, 7] : List Int)[2 + 1]? = some 7 := by decide

theorem witness_ReservedPairsRaiseInvalidOperand :
    step (machine [7, 7] 0 0 0) = .fault (.invalidOperand 0 7) := by rfl

theorem witness_NegativeShiftCountExactly :
    (machine [0, 5] 8 (-1) 0).readyToFetch ∧ (machine [0, 5] 8 (-1) 0).fetchPair = some (0, 5) ∧
      combo 5 (machine [0, 5] 8 (-1) 0) = some (-1) ∧ (machine [0, 5] 8 0 0).nonNegative := by decide

/-- A halted state, a state out of budget and a faulting one. -/
theorem witness_StoppedStatesAreAbsorbing :
    ({ machine [3, 0] 1 0 0 with pc := 2 } : State).status ≠ .running ∧
      ({ machine [3, 0] 1 0 0 with stepLimit := some 0 } : State).status ≠ .running ∧
      (machine [5, 7] 0 0 0).status ≠ .running := by decide

theorem witness_ResultOfEachOutcome :
    stop { machine [5, 4] 10 0 0 with pc := 2, out := [2] } = some .halted ∧
      stop { machine [3, 0] 1 0 0 with stepLimit := some 0 } = some .budgetExhausted ∧
      stop (machine [5, 7] 0 0 0) = some (.invalidOperand 0 5) ∧ ¬wellFormedLoad [0, 8] := by decide

/-- The lengths 2, 4 and 10 with literals at their bounds. -/
theorem witness_JumpOutOfTheProgramHalts :
    (machine [3, 1] 1 0 0).a ≠ 0 ∧ (machine [3, 1] 1 0 0).len = 2 ∧ (1 : Cell) ≠ 0 ∧
      (machine [3, 3, 0, 0] 1 0 0).len = 4 ∧ 3 ≤ (3 : Cell).val ∧
      10 ≤ (machine [3, 7, 0, 0, 0, 0, 0, 0, 0, 0] 1 0 0).len := by decide

/-- A JNZ fetched at the odd address 1 under overlap, to the odd address 5. -/
theorem witness_OddJumpInsideTheProgram_at_odd_pc :
    { machine [0, 3, 5, 0, 0, 1, 2, 0] 1 0 0 with pc := 1, oddFetch := .overlap }.oddFetch = .overlap ∧
      1 + 1 < (machine [0, 3, 5, 0, 0, 1, 2, 0] 1 0 0).len ∧
      (machine [0, 3, 5, 0, 0, 1, 2, 0] 1 0 0).prog[1]? = some 3 ∧
      (machine [0, 3, 5, 0, 0, 1, 2, 0] 1 0 0).prog[1 + 1]? = some 5 ∧ (5 : Cell).val % 2 = 1 ∧
      (5 : Cell).val + 1 < (machine [0, 3, 5, 0, 0, 1, 2, 0] 1 0 0).len ∧
      (machine [0, 3, 5, 0, 0, 1, 2, 0] 1 0 0).prog[5]? = some 1 ∧
      (machine [0, 3, 5, 0, 0, 1, 2, 0] 1 0 0).prog[5 + 1]? = some 2 ∧
      (machine [0, 3, 5, 0, 0, 1, 2, 0] 1 0 0).a ≠ 0 ∧
      (machine [0, 3, 5, 0, 0, 1, 2, 0] 1 0 0).stepLimit ≠ some 0 ∧
      (machine [0, 3, 5, 0, 0, 1, 2, 0] 1 0 0).stepLimit ≠ some 1 := by decide

/-- Program P8, with A zero and not zero. -/
theorem witness_OddJumpInsideTheProgram :
    (machine [3, 1, 5, 4] 1 0 0).pc + 1 < (machine [3, 1, 5, 4] 1 0 0).len ∧ (machine [3, 1, 5, 4] 1 0 0).pc % 2 = 0 ∧
      (machine [3, 1, 5, 4] 1 0 0).stepLimit ≠ some 0 ∧ (machine [3, 1, 5, 4] 1 0 0).stepLimit ≠ some 1 ∧
      (machine [3, 1, 5, 4] 1 0 0).prog[0]? = some 3 ∧ (machine [3, 1, 5, 4] 1 0 0).prog[1]? = some 1 ∧
      (1 : Cell).val % 2 = 1 ∧ (1 : Cell).val + 1 < (machine [3, 1, 5, 4] 1 0 0).len ∧
      (machine [3, 1, 5, 4] 1 0 0).prog[2]? = some 5 ∧ (machine [3, 1, 5, 4] 1 0 0).a ≠ 0 ∧
      (machine [3, 1, 5, 4] 0 0 0).a = 0 ∧ { machine [3, 1, 5, 4] 1 0 0 with oddFetch := .overlap }.oddFetch = .overlap := by
  decide

/-- Program P6 without its ceiling. -/
theorem witness_SelfJumpNeverStops :
    (machine [3, 0] 1 0 0).pc + 1 < (machine [3, 0] 1 0 0).len ∧ (machine [3, 0] 1 0 0).prog[0]? = some 3 ∧
      (machine [3, 0] 1 0 0).prog[1]? = some 0 ∧ (0 : Cell).val = (machine [3, 0] 1 0 0).pc ∧
      (machine [3, 0] 1 0 0).a ≠ 0 ∧ (machine [3, 0] 1 0 0).stepLimit = none := by decide

theorem witness_AdvLowersAPositiveA :
    0 < (machine [0, 1] 1 0 0).a ∧ 1 ≤ evalCombo (.lit 1) (machine [0, 1] 1 0 0) := by decide

theorem witness_OddFetchIdleAtEvenPc : (machine [3, 1, 5, 4] 1 0 0).pc % 2 = 0 := by decide

/-- A launched state and one step of its run, with non-negative registers, for the statements about whole runs. -/
theorem witness_run :
    launch [5, 4] 10 0 0 none .fault = .next (machine [5, 4] 10 0 0) ∧
      step (machine [5, 4] 10 0 0) = .next { machine [5, 4] 10 0 0 with out := [2], pc := 2, steps := 1 } ∧
      Reaches (machine [5, 4] 10 0 0) { machine [5, 4] 10 0 0 with out := [2], pc := 2, steps := 1 } ∧
      (machine [5, 4] 10 0 0).pcBounded ∧ (machine [5, 4] 10 0 0).nonNegative ∧ (machine [5, 4] 10 0 0).outNext = true :=
  ⟨rfl, rfl, .step .start rfl, by decide, by decide, by decide⟩

/-- A state that is not stopped after one step. -/
theorem witness_StepsCountCommittedInstructions : ¬(runFor 1 (machine [3, 0] 1 0 0)).stopped :=
  fun h => h { machine [3, 0] 1 0 0 with steps := 2 } rfl

theorem witness_CeilingEndsEveryRun :
    ({ machine [3, 0] 1 0 0 with stepLimit := some 3 } : State).stepLimit = some 3 ∧ (machine [3, 0] 1 0 0).steps ≤ 3 := by
  decide

theorem witness_LargerCeilingRepeatsTheRun :
    ({ machine [3, 0] 1 0 0 with stepLimit := some 3 } : State).stepLimit = some 3 ∧
      (∀ m, (none : Option Nat) = some m → 3 ≤ m) ∧ (∀ m, some 3 = some m → 3 ≤ m) ∧
      (machine [3, 0] 1 0 0).steps + 3 ≤ 3 :=
  ⟨rfl, nofun, fun _ h => by cases h; exact le_refl 3, le_refl 3⟩

/-- The machine at the smaller ceiling 3, with the larger ceiling 4 and with none. -/
theorem witness_LargerCeilingRepeatsTheRun_goes_on :
    step { machine [3, 0] 1 0 0 with steps := 3, stepLimit := some 3 } = .fault .budgetExhausted ∧
      (some 4 : Option Nat) ≠ some 3 ∧ (none : Option Nat) ≠ some 3 :=
  ⟨rfl, by decide, by decide⟩

end Sys2Proof.Tests
end

/-! SUPPORT. The rules of launching, stepping and running that the statements about whole runs share. -/
section
namespace Sys2Proof.Machine

/-! ### What an instruction leaves and where it goes -/

/-- No instruction writes the Program, the step count or the parameters (R18). -/
theorem exec_next_frame {i : Instr} {s t : State} (h : exec i s = .next t) :
    t.prog = s.prog ∧ t.steps = s.steps ∧ t.stepLimit = s.stepLimit ∧ t.oddFetch = s.oddFetch := by
  obtain ⟨d, o, -, -, rfl⟩ | ⟨l, -, rfl⟩ | ⟨o, -, rfl⟩ | ⟨l, -, rfl⟩ | ⟨x, -, rfl⟩ | ⟨o, -, rfl⟩ :=
    exec_next_cases h
  case inr.inr.inr.inl => split <;> simp
  all_goals simp

/-- An instruction advances the program counter (R62), or is a taken JNZ and sets it to the literal (R79). -/
theorem exec_next_pc {i : Instr} {s t : State} (h : exec i s = .next t) :
    t.pc = s.pc + 2 ∨ ∃ l : Cell, i = .jnz l ∧ s.a ≠ 0 ∧ t.pc = l.val := by
  obtain ⟨d, o, -, -, rfl⟩ | ⟨l, -, rfl⟩ | ⟨o, -, rfl⟩ | ⟨l, rfl, rfl⟩ | ⟨x, -, rfl⟩ | ⟨o, -, rfl⟩ :=
    exec_next_cases h
  case inr.inr.inr.inl =>
    split
    · exact .inr ⟨l, rfl, ‹_›, rfl⟩
    · exact .inl rfl
  all_goals exact .inl (by simp)

/-- From non-negative registers every combo operand is non-negative. -/
theorem evalCombo_nonneg {s : State} (h : s.nonNegative) (o : Combo) : 0 ≤ evalCombo o s := by
  obtain ⟨ha, hb, hc⟩ := h
  match o with
  | .lit n => exact Int.natCast_nonneg n.val
  | .reg .a => exact ha
  | .reg .b => exact hb
  | .reg .c => exact hc

/-- Writing a non-negative value to a register keeps all registers non-negative. -/
theorem State.setReg_nonNegative {s : State} (h : s.nonNegative) (r : Reg) {v : Int} (hv : 0 ≤ v) :
    (s.setReg r v).nonNegative := by
  obtain ⟨ha, hb, hc⟩ := h
  cases r with
  | a => exact ⟨hv, hb, hc⟩
  | b => exact ⟨ha, hv, hc⟩
  | c => exact ⟨ha, hb, hv⟩

/-- Each value an instruction writes to a register is non-negative when the registers it reads are (R24). -/
theorem exec_keeps_nonNegative {i : Instr} {s t : State} (hs : s.nonNegative) (h : exec i s = .next t) :
    t.nonNegative := by
  have ⟨ha, hb, hc⟩ := hs
  obtain ⟨d, o, -, -, rfl⟩ | ⟨l, -, rfl⟩ | ⟨o, -, rfl⟩ | ⟨l, -, rfl⟩ | ⟨x, -, rfl⟩ | ⟨o, -, rfl⟩ :=
    exec_next_cases h
  · exact State.setReg_nonNegative hs d (tdiv_nonneg ha (pow2_pos _))
  · exact State.setReg_nonNegative hs .b (ixor_nonneg hb (Int.natCast_nonneg l.val))
  · exact State.setReg_nonNegative hs .b (mod8_range _).1
  · split <;> exact hs
  · exact State.setReg_nonNegative hs .b (ixor_nonneg hb hc)
  · exact hs

/-! ### One step -/

/-- A step that answers a next state found a full pair at the program counter. -/
theorem step_next_pair_remains {s t : State} (h : step s = .next t) : s.pc + 1 < s.prog.length := by
  obtain ⟨-, hstop, -⟩ := step_next_cases h
  obtain ⟨hend, -, -⟩ := s.stopBeforeFetch_eq_none.mp hstop
  simpa [State.atEnd] using hend

/-- A step that answers a next state keeps the Program and the parameters and adds one to the step count. -/
theorem step_next_frame {s t : State} (h : step s = .next t) :
    t.prog = s.prog ∧ t.steps = s.steps + 1 ∧ t.stepLimit = s.stepLimit ∧ t.oddFetch = s.oddFetch := by
  obtain ⟨-, -, i, u, -, hu, rfl⟩ := step_next_cases h
  obtain ⟨hprog, hsteps, hlimit, hodd⟩ := exec_next_frame hu
  exact ⟨hprog, congrArg (· + 1) hsteps, hlimit, hodd⟩

/-- Every step keeps the bound on the program counter, with no need of the bound before it: an advance from a full pair ends at most at `LEN`,
and a taken JNZ at a literal of at most 7. -/
theorem step_next_pcBounded {s t : State} (h : step s = .next t) : t.pcBounded := by
  have hpair := step_next_pair_remains h
  obtain ⟨hprog, -, -, -⟩ := step_next_frame h
  obtain ⟨-, -, i, u, -, hu, rfl⟩ := step_next_cases h
  rw [State.pcBounded, State.len_eq, hprog, State.countStep_pc]
  obtain hadv | ⟨l, -, -, hjump⟩ := exec_next_pc hu <;> omega

/-- Every step keeps the registers non-negative (R24). -/
theorem step_keeps_nonNegative {s t : State} (hs : s.nonNegative) (h : step s = .next t) : t.nonNegative := by
  obtain ⟨-, -, i, u, -, hu, rfl⟩ := step_next_cases h
  have hkept : u.nonNegative := exec_keeps_nonNegative hs hu
  exact hkept

/-- Only a negative combo operand raises a negative shift count (R92), and non-negative registers give none. -/
theorem step_ne_negativeShiftCount {s : State} (hs : s.nonNegative) (p : Nat) (k : Int) :
    step s ≠ .fault (.negativeShiftCount p k) := by
  intro h
  obtain ⟨-, hstop | ⟨-, i, -, hexec⟩⟩ := step_fault_cases h
  · simp [State.stopBeforeFetch_eq_some] at hstop
  · obtain ⟨o, -, hneg, -⟩ | ⟨-, hf⟩ := exec_fault_cases hexec
    · exact absurd (evalCombo_nonneg hs o) (not_le.mpr hneg)
    · nomatch hf

/-! ### Launching and running -/

/-- A launch makes the launch state of a Program that passes the load check, and no other (R108 to R110). -/
theorem launch_eq_next {p : List Int} {a b c : Int} {limit : Option Nat} {odd : OddFetch} {s : State} :
    launch p a b c limit odd = .next s ↔ loadCheck p = none ∧ s = launchState p a b c limit odd := by
  unfold launch
  cases loadCheck p <;> simp [eq_comm]

/-- A predicate that every step keeps holds along the whole run. -/
theorem Reaches.keeps {P : State → Prop} (hstep : ∀ {t u : State}, P t → Machine.step t = .next u → P u)
    {s t : State} (hs : P s) (h : Reaches s t) : P t := by
  induction h with
  | start => exact hs
  | step _ hu ih => exact hstep ih hu

/-- Either a step answers a next state or the machine has stopped. -/
theorem State.step_next_or_stopped (s : State) : (∃ t, step s = .next t) ∨ s.stopped := by
  rw [← not_forall_not]
  exact (em _).symm

/-- A run goes on from the next state. -/
theorem runFor_succ_of_next {s t : State} (h : step s = .next t) (k : Nat) : runFor (k + 1) s = runFor k t := by
  simp [runFor, h]

/-- A stopped machine is left as it is (R99). -/
theorem runFor_of_stopped {s : State} (h : s.stopped) (k : Nat) : runFor k s = s := by
  cases k with
  | zero => rfl
  | succ k =>
    unfold runFor
    split
    · exact absurd ‹_› (h _)
    all_goals rfl

/-- A run that has not stopped has counted every step. -/
theorem runFor_steps_of_not_stopped {s : State} {k : Nat} (h : ¬(runFor k s).stopped) :
    (runFor k s).steps = s.steps + k := by
  induction k generalizing s with
  | zero => rfl
  | succ k ih =>
    obtain ⟨t, ht⟩ | hstop := s.step_next_or_stopped
    · rw [runFor_succ_of_next ht] at h ⊢
      obtain ⟨-, hsteps, -, -⟩ := step_next_frame ht
      rw [ih h, hsteps]
      omega
    · exact absurd (by rwa [runFor_of_stopped hstop]) h

/-- A run never counts more than the steps it was given. -/
theorem runFor_steps_le (s : State) (k : Nat) : (runFor k s).steps ≤ s.steps + k := by
  induction k generalizing s with
  | zero => exact le_rfl
  | succ k ih =>
    obtain ⟨t, ht⟩ | hstop := s.step_next_or_stopped
    · rw [runFor_succ_of_next ht]
      obtain ⟨-, hsteps, -, -⟩ := step_next_frame ht
      have hrest := ih t
      omega
    · rw [runFor_of_stopped hstop]
      exact Nat.le_add_right _ _

/-! ### Changes of the state that no instruction can see -/

/-- A change of the state that keeps the registers and the program counter and passes through every update an instruction makes. -/
structure Unseen (f : State → State) : Prop where
  getReg : ∀ (s : State) (r : Reg), (f s).getReg r = s.getReg r
  pc : ∀ s : State, (f s).pc = s.pc
  setReg : ∀ (s : State) (r : Reg) (v : Int), (f s).setReg r v = f (s.setReg r v)
  advance : ∀ s : State, (f s).advance = f s.advance
  jumpTo : ∀ (s : State) (n : Nat), (f s).jumpTo n = f (s.jumpTo n)
  emit : ∀ (s : State) (v : Cell), (f s).emit v = f (s.emit v)

namespace Unseen
variable {f : State → State} (hf : Unseen f) (s : State)
include hf

theorem a : (f s).a = s.a := hf.getReg s .a
theorem b : (f s).b = s.b := hf.getReg s .b
theorem c : (f s).c = s.c := hf.getReg s .c

theorem jumpTaken : (f s).jumpTaken = s.jumpTaken := by rw [State.jumpTaken, State.jumpTaken, hf.a]

theorem evalCombo (o : Combo) : Machine.evalCombo o (f s) = Machine.evalCombo o s := by
  cases o with
  | lit n => rfl
  | reg r => exact hf.getReg s r

theorem divide (d : Reg) (o : Combo) : Machine.divide d o (f s) = mapNext f (Machine.divide d o s) := by
  have hk := hf.evalCombo s o
  by_cases hneg : Machine.evalCombo o s < 0
  · rw [divide_of_neg hneg, divide_of_neg (hk ▸ hneg), hk, hf.pc, mapNext]
  · have hnonneg := not_lt.mp hneg
    rw [divide_of_nonneg hnonneg, divide_of_nonneg (hk ▸ hnonneg), hk, hf.a, hf.setReg, hf.advance, mapNext]

theorem raiseInvalidOperand (opcode : Cell) :
    Machine.raiseInvalidOperand opcode (f s) = mapNext f (Machine.raiseInvalidOperand opcode s) := by
  unfold Machine.raiseInvalidOperand
  rw [hf.pc]
  rfl

/-- An instruction does the same with the change as without, and leaves the change in place. -/
theorem exec (i : Instr) : Machine.exec i (f s) = mapNext f (Machine.exec i s) := by
  cases i with
  | adv o => exact hf.divide s .a o
  | bdv o => exact hf.divide s .b o
  | cdv o => exact hf.divide s .c o
  | bxl l => simp [Machine.exec, execBxl, mapNext, hf.b, hf.setReg, hf.advance]
  | bst o => simp [Machine.exec, execBst, mapNext, hf.evalCombo, hf.setReg, hf.advance]
  | jnz l => simp [Machine.exec, execJnz, mapNext, hf.jumpTaken, hf.jumpTo, hf.advance, apply_ite f]
  | bxc x => simp [Machine.exec, execBxc, mapNext, hf.b, hf.c, hf.setReg, hf.advance]
  | out o => simp [Machine.exec, execOut, mapNext, hf.evalCombo, hf.emit, hf.advance]
  | reservedAdv7 => exact hf.raiseInvalidOperand s 0
  | reservedBst7 => exact hf.raiseInvalidOperand s 2
  | reservedOut7 => exact hf.raiseInvalidOperand s 5
  | reservedBdv7 => exact hf.raiseInvalidOperand s 6
  | reservedCdv7 => exact hf.raiseInvalidOperand s 7

end Unseen

/-- The state with other bookkeeping: step count, ceiling, `ODD_FETCH` and Program (R18). -/
def State.withBookkeeping (n : Nat) (limit : Option Nat) (odd : OddFetch) (cells : List Cell) (s : State) : State :=
  { s with steps := n, stepLimit := limit, oddFetch := odd, prog := cells }

theorem unseen_withBookkeeping (n : Nat) (limit : Option Nat) (odd : OddFetch) (cells : List Cell) :
    Unseen (State.withBookkeeping n limit odd cells) where
  getReg _ r := by cases r <;> rfl
  pc _ := rfl
  setReg _ r _ := by cases r <;> rfl
  advance _ := rfl
  jumpTo _ _ := rfl
  emit _ _ := rfl

end Sys2Proof.Machine
end

/-! SUPPORT. The statements about the state (10_state.md). -/
section
namespace Sys2Proof.Proofs

open Sys2Proof.Machine

/-- Settles O44: every step ends within the bound, and a launch starts at address 0. -/
theorem programCounterStaysBounded : Obligations.ProgramCounterStaysBounded := by
  refine ⟨fun s t _ h => step_next_pcBounded h, ?_⟩
  intro p a b c limit odd s t hlaunch hreach
  obtain ⟨-, rfl⟩ := launch_eq_next.mp hlaunch
  exact hreach.keeps (P := State.pcBounded) (fun _ h => step_next_pcBounded h) (Nat.zero_le _)

/-- Settles O45: the invariant holds at launch, every step keeps it, and it gives non-negative operands. -/
theorem nonNegativeRegistersStaySo : Obligations.NonNegativeRegistersStaySo := by
  refine ⟨fun s t => step_keeps_nonNegative, ?_⟩
  intro p a b c limit odd s t hlaunch ha hb hc hreach
  obtain ⟨-, rfl⟩ := launch_eq_next.mp hlaunch
  have ht : t.nonNegative := hreach.keeps (P := State.nonNegative) step_keeps_nonNegative ⟨ha, hb, hc⟩
  exact ⟨ht, evalCombo_nonneg ht, step_ne_negativeShiftCount ht⟩

/-- Settles O26: the bookkeeping is a part of the state that no instruction can see. -/
theorem bookkeepingIsInvisible : Obligations.BookkeepingIsInvisible :=
  fun i s n limit odd cells => (unseen_withBookkeeping n limit odd cells).exec s i

/-- Settles O49: a commit counts one step, and a run counts its steps until it stops. -/
theorem stepsCountCommittedInstructions : Obligations.StepsCountCommittedInstructions := by
  refine ⟨fun s t h => ?_, fun s k => runFor_steps_of_not_stopped, runFor_steps_le, ?_⟩
  · obtain ⟨-, hsteps, -, -⟩ := step_next_frame h
    exact hsteps
  · intro p a b c limit odd s hlaunch
    obtain ⟨-, rfl⟩ := launch_eq_next.mp hlaunch
    rfl

end Sys2Proof.Proofs
end

/-! SUPPORT. Program memory along a run (20_memory.md). -/
section
namespace Sys2Proof.Machine

/-- A read of program memory depends on the Program alone (R27). -/
theorem State.memRead_congr {s t : State} (h : t.prog = s.prog) (addr n : Nat) :
    t.memRead addr n = s.memRead addr n := by
  simp only [State.memRead, State.len_eq, h]

/-- Every state of a run has the Program and the parameters the run began with. -/
theorem Reaches.frame {s t : State} (h : Reaches s t) :
    t.prog = s.prog ∧ t.stepLimit = s.stepLimit ∧ t.oddFetch = s.oddFetch := by
  refine h.keeps (P := fun u => u.prog = s.prog ∧ u.stepLimit = s.stepLimit ∧ u.oddFetch = s.oddFetch)
    ?_ ⟨rfl, rfl, rfl⟩
  intro u v ⟨hprog, hlimit, hodd⟩ hstep
  obtain ⟨hprog', -, hlimit', hodd'⟩ := step_next_frame hstep
  exact ⟨hprog'.trans hprog, hlimit'.trans hlimit, hodd'.trans hodd⟩

end Sys2Proof.Machine
end

/-! SUPPORT. The statements about program memory (20_memory.md). -/
section
namespace Sys2Proof.Proofs

open Sys2Proof.Machine

/-- Settles O48: every step keeps the Program and the parameters, and a read depends on the Program alone. -/
theorem programIsNeverWritten : Obligations.ProgramIsNeverWritten := by
  intro s t hreach
  obtain ⟨hprog, hlimit, hodd⟩ := hreach.frame
  exact ⟨hprog, State.memRead_congr hprog, hlimit, hodd⟩

/-- Settles O29: `pc + 1 < LEN` puts both cells of the pair inside the Program, and its failure leaves no pair (R58). -/
theorem fetchReadsOpcodeThenOperand : Obligations.FetchReadsOpcodeThenOperand := by
  refine fun s => ⟨fun hpair => ?_, fun hend => State.fetchPair_eq_none (Nat.lt_succ_of_le hend)⟩
  exact ⟨_, _, List.getElem?_eq_getElem _, List.getElem?_eq_getElem _, State.fetchPair_eq hpair⟩

end Sys2Proof.Proofs
end

/-! SUPPORT. The reserved pairs (30_encoding.md): which they are, what executing one does, and where the fault comes from. -/
section
namespace Sys2Proof

/-- Only the operand 7 has no combo meaning (R46). -/
theorem comboDecode_eq_none {od : Cell} : comboDecode od = none ↔ od = 7 := by
  decide +revert

/-- A combo-mode row of unreserved instructions is reserved at the operand 7 alone (R49). -/
theorem decodeCombo_isReserved {make : Combo → Instr} {reserved : Instr} (hmake : ∀ o, (make o).isReserved = false)
    (hreserved : reserved.isReserved = true) (od : Cell) :
    (decodeCombo make reserved od).isReserved = true ↔ od = 7 := by
  rw [← comboDecode_eq_none]
  unfold decodeCombo
  cases comboDecode od with
  | none => simp [hreserved]
  | some o => simp [hmake]

/-- A pair is reserved when its opcode has combo mode and its operand is 7 (R44, R49). -/
theorem decode_isReserved {op od : Cell} :
    (decode op od).isReserved = true ↔ od = 7 ∧ (op = 0 ∨ op = 2 ∨ op = 5 ∨ op = 6 ∨ op = 7) := by
  match op with
  | 0 | 2 | 5 | 6 | 7 => simpa [decode] using decodeCombo_isReserved (fun _ => rfl) rfl od
  | 1 | 3 | 4 => simp [decode, Instr.isReserved]

/-- Decoding keeps the opcode (R48). -/
theorem decode_opcode (op od : Cell) : (decode op od).opcode = op := by
  decide +revert

end Sys2Proof

namespace Sys2Proof.Machine

/-- A reserved row stops every state with `InvalidOperand`, recording the program counter and the row's opcode (R49, R90). -/
theorem exec_of_isReserved {i : Instr} (h : i.isReserved = true) (s : State) :
    exec i s = .fault (.invalidOperand s.pc i.opcode) := by
  match i with
  | .reservedAdv7 | .reservedBst7 | .reservedOut7 | .reservedBdv7 | .reservedCdv7 => rfl

/-- No test before the fetch and no unreserved instruction raises `InvalidOperand`, so the fault names a reserved pair that was fetched (R90). -/
theorem step_invalidOperand {s : State} {p : Nat} {op : Cell} (h : step s = .fault (.invalidOperand p op)) :
    p = s.pc ∧ ∃ od, s.fetchPair = some (op, od) ∧ (decode op od).isReserved = true := by
  obtain ⟨-, hstop | ⟨-, i, hfetch, hexec⟩⟩ := step_fault_cases h
  · simp [State.stopBeforeFetch_eq_some] at hstop
  · obtain ⟨op', od, hpair, rfl⟩ := State.fetchInstr_eq_some.mp hfetch
    obtain ⟨_, -, -, hf⟩ | ⟨hres, hf⟩ := exec_fault_cases hexec
    · nomatch hf
    · rw [decode_opcode, Fault.invalidOperand.injEq] at hf
      obtain ⟨rfl, rfl⟩ := hf
      exact ⟨rfl, od, hpair, hres⟩

end Sys2Proof.Machine
end

/-! SUPPORT. The statement about the reserved pairs (30_encoding.md). -/
section
namespace Sys2Proof.Proofs

open Sys2Proof.Machine

/-- Settles O24: each reserved row faults in every state, and the fault comes from a fetched pair that is reserved, so its operand is 7. -/
theorem reservedPairsRaiseInvalidOperand : Obligations.ReservedPairsRaiseInvalidOperand := by
  refine ⟨fun _ _ => decode_isReserved, rfl, rfl, rfl, rfl, rfl, fun s => ⟨exec_of_isReserved rfl s,
    exec_of_isReserved rfl s, exec_of_isReserved rfl s, exec_of_isReserved rfl s, exec_of_isReserved rfl s, ?_⟩⟩
  intro p op h
  obtain ⟨-, od, hpair, hres⟩ := step_invalidOperand h
  obtain ⟨rfl, -⟩ := decode_isReserved.mp hres
  exact ⟨hpair, hres⟩

end Sys2Proof.Proofs
end

/-! SUPPORT. The machine's arithmetic in the library's terms: truncating division, powers of two, binary digits (40_cycle_and_arith.md). -/
section
namespace Sys2Proof.Machine

/-! ### Truncating division -/

/-- From zero on the quotient is a floor (R65). -/
theorem tdiv_of_nonneg {a : Int} (ha : 0 ≤ a) (b : Int) : tdiv a b = a / b :=
  if_pos ha

/-- Below zero the quotient is minus the floor of the negated dividend's (R65). -/
theorem tdiv_of_neg {a : Int} (ha : a < 0) (b : Int) : tdiv a b = -((-a) / b) :=
  if_neg (not_le.mpr ha)

/-- The model's quotient is the library's truncating one, whatever the divisor. -/
theorem tdiv_eq_int_tdiv (a b : Int) : tdiv a b = Int.tdiv a b := by
  obtain ha | ha := lt_or_ge a 0
  · rw [tdiv_of_neg ha, ← Int.tdiv_eq_ediv_of_nonneg (by omega), Int.neg_tdiv, neg_neg]
  · rw [tdiv_of_nonneg ha, Int.tdiv_eq_ediv_of_nonneg ha]

/-- A remainder of truncating division is zero or has the dividend's sign. -/
theorem tmod_sign (a b : Int) :
    Int.tmod a b = 0 ∨ (0 < Int.tmod a b ∧ 0 < a) ∨ (Int.tmod a b < 0 ∧ a < 0) := by
  have hsign := Int.sign_tmod a b
  split at hsign
  · exact .inl (Int.sign_eq_zero_iff_zero.mp hsign)
  · obtain ha | rfl | ha := lt_trichotomy a 0
    · exact .inr (.inr ⟨by rwa [Int.sign_eq_neg_one_of_neg ha, Int.sign_eq_neg_one_iff_neg] at hsign, ha⟩)
    · exact .inl (Int.zero_tmod b)
    · exact .inr (.inl ⟨by rwa [Int.sign_eq_one_of_pos ha, Int.sign_eq_one_iff_pos] at hsign, ha⟩)

/-- The quotient and a remainder below the divisor and of the dividend's sign, for a divisor above 0. -/
theorem tdiv_remainder (a : Int) {b : Int} (hb : 0 < b) :
    ∃ r, a = tdiv a b * b + r ∧ -b < r ∧ r < b ∧ (r = 0 ∨ (0 < r ∧ 0 < a) ∨ (r < 0 ∧ a < 0)) := by
  refine ⟨Int.tmod a b, ?_, Int.lt_tmod_of_pos a hb, Int.tmod_lt_of_pos a hb, tmod_sign a b⟩
  rw [tdiv_eq_int_tdiv, mul_comm, Int.mul_tdiv_add_tmod]

/-- Only the truncating quotient leaves a remainder below the divisor and of the dividend's sign. -/
theorem eq_tdiv_of_remainder {a b q r : Int} (ha : a = q * b + r) (hlow : -b < r) (hhigh : r < b)
    (hsign : r = 0 ∨ (0 < r ∧ 0 < a) ∨ (r < 0 ∧ a < 0)) : q = tdiv a b := by
  rw [tdiv_eq_int_tdiv]
  have hsum : r + b * q = a := by rw [ha]; ring
  obtain hneg | hpos := lt_or_ge a 0
  · exact ((Int.tdiv_tmod_unique' hneg.le (by omega)).mpr ⟨hsum, by omega, by omega⟩).1.symm
  · exact ((Int.tdiv_tmod_unique hpos (by omega)).mpr ⟨hsum, by omega, by omega⟩).1.symm

/-- A dividend of smaller magnitude than the divisor has quotient zero, whatever its sign (R70). -/
theorem tdiv_eq_zero {a b : Int} (hlow : -b < a) (hhigh : a < b) : tdiv a b = 0 :=
  (eq_tdiv_of_remainder (r := a) (by simp) hlow hhigh (by omega)).symm

/-- Below zero the truncating quotient is one above the floor, unless the divisor divides (R69). -/
theorem tdiv_eq_ediv_add_one {a b : Int} (hb : 0 < b) (ha : a < 0) (hdvd : ¬b ∣ a) : tdiv a b = a / b + 1 := by
  rw [tdiv_eq_int_tdiv, Int.tdiv_eq_ediv, if_neg (by simp [hdvd, ha]), Int.sign_eq_one_of_pos hb]

/-- The floor of a quotient by a power of two is the arithmetic shift. -/
theorem ediv_pow2 (a : Int) (k : Nat) : a / pow2 k = a >>> k :=
  (Int.shiftRight_eq_div_pow a k).symm

/-- An integer of at least zero is below its own power of two. -/
theorem lt_pow2_self {a : Int} (ha : 0 ≤ a) : a < pow2 a := by
  have hpow : a.toNat < 2 ^ a.toNat := Nat.lt_two_pow_self
  unfold pow2
  omega

/-! ### Binary digits -/

/-- A digit is the library's bit, read as a number. -/
theorem digit_eq_testBit (n : Int) (i : Nat) : digit n i = if n.testBit i then 1 else 0 := by
  unfold digit
  cases n with
  | ofNat m =>
    have hquot : Int.ofNat m / ((2 ^ i : Nat) : Int) = ((m / 2 ^ i : Nat) : Int) := rfl
    rw [hquot]
    simp only [Int.testBit, Nat.testBit_eq_decide_div_mod_eq, decide_eq_true_eq]
    omega
  | negSucc m =>
    have hquot : Int.negSucc m / ((2 ^ i : Nat) : Int) = -(((m / 2 ^ i : Nat) : Int) + 1) :=
      Int.negSucc_ediv m (by positivity)
    rw [hquot]
    simp only [Int.testBit, Nat.testBit_eq_decide_div_mod_eq, Bool.not_eq_true', decide_eq_false_iff_not]
    omega

/-- The library's bit is set where the digit is 1. -/
theorem testBit_eq_decide_digit (n : Int) (i : Nat) : n.testBit i = decide (digit n i = 1) := by
  rw [digit_eq_testBit]
  cases n.testBit i <;> rfl

/-- An integer of at least zero and one below differ at the bits above both, which are the sign's (R67). -/
theorem exists_testBit_ofNat_ne_negSucc (m n : Nat) :
    ∃ i, (Int.ofNat m).testBit i ≠ (Int.negSucc n).testBit i := by
  have hm : m < 2 ^ (m + n) := lt_of_le_of_lt (Nat.le_add_right m n) Nat.lt_two_pow_self
  have hn : n < 2 ^ (m + n) := lt_of_le_of_lt (Nat.le_add_left n m) Nat.lt_two_pow_self
  exact ⟨m + n, by simp [Int.testBit, Nat.testBit_lt_two_pow hm, Nat.testBit_lt_two_pow hn]⟩

/-- An integer is determined by its bits. -/
theorem eq_of_int_testBit_eq {m n : Int} (h : ∀ i, m.testBit i = n.testBit i) : m = n := by
  match m, n with
  | .ofNat m, .ofNat n => exact congrArg Int.ofNat (Nat.eq_of_testBit_eq h)
  | .negSucc m, .negSucc n => exact congrArg Int.negSucc (Nat.eq_of_testBit_eq fun i => Bool.not_inj (h i))
  | .ofNat m, .negSucc n =>
    obtain ⟨i, hi⟩ := exists_testBit_ofNat_ne_negSucc m n
    exact absurd (h i) hi
  | .negSucc m, .ofNat n =>
    obtain ⟨i, hi⟩ := exists_testBit_ofNat_ne_negSucc n m
    exact absurd (h i).symm hi

/-- An integer is determined by its digits (R67). -/
theorem eq_of_digit_eq {m n : Int} (h : ∀ i, digit m i = digit n i) : m = n :=
  eq_of_int_testBit_eq fun i => by rw [testBit_eq_decide_digit, testBit_eq_decide_digit, h i]

/-! ### Exclusive-or -/

/-- The model's exclusive-or is the library's. -/
theorem ixor_eq_int_xor (a b : Int) : ixor a b = Int.xor a b := by
  cases a <;> cases b <;> rfl

/-- A digit of the exclusive-or is 1 where the digits differ (R67). -/
theorem digit_ixor (a b : Int) (i : Nat) : digit (ixor a b) i = if digit a i = digit b i then 0 else 1 := by
  rw [ixor_eq_int_xor, digit_eq_testBit, digit_eq_testBit, digit_eq_testBit, Int.testBit_lxor]
  cases a.testBit i <;> cases b.testBit i <;> rfl

/-- The exclusive-or is negative when just one of the two integers is (R67). -/
theorem ixor_neg_iff (a b : Int) : ixor a b < 0 ↔ ¬(a < 0 ↔ b < 0) := by
  match a, b with
  | .ofNat m, .ofNat n | .ofNat m, .negSucc n | .negSucc m, .ofNat n | .negSucc m, .negSucc n =>
    simp only [ixor, Int.ofNat_eq_natCast]; omega

@[simp] theorem ixor_zero (n : Int) : ixor n 0 = n := by
  cases n <;> simp [ixor]

@[simp] theorem ixor_self (n : Int) : ixor n n = 0 := by
  cases n <;> simp [ixor]

/-- The exclusive-or with all digits 1 is the complement. -/
theorem ixor_neg_one (n : Int) : ixor n (-1) = -n - 1 := by
  change ixor n (.negSucc 0) = _
  cases n <;> simp only [ixor, Nat.xor_zero, Int.ofNat_eq_natCast] <;> omega

end Sys2Proof.Machine
end

/-! SUPPORT. Operand values, and the status function against the instructions' own tests (40_cycle_and_arith.md). -/
section
namespace Sys2Proof.Machine

/-! ### Operands and decoding -/

/-- The value of an operand cell is the value of the operand it decodes to (R63). -/
theorem combo_eq_map_comboDecode (od : Cell) (s : State) :
    combo od s = (comboDecode od).map (fun o => evalCombo o s) := by
  match od with
  | 0 | 1 | 2 | 3 | 4 | 5 | 6 | 7 => rfl

/-- An operand cell has a negative value when it decodes to a combo operand that has (R56 test 5). -/
theorem comboNegative_iff {od : Cell} {s : State} :
    comboNegative od s = true ↔ ∃ o, comboDecode od = some o ∧ evalCombo o s < 0 := by
  unfold comboNegative
  rw [combo_eq_map_comboDecode]
  cases comboDecode od <;> simp

/-- The pairs of the divide family: its opcodes with an operand that decodes (R71). -/
theorem decode_eq_divide {op od : Cell} {o : Combo} :
    (decode op od = .adv o ∨ decode op od = .bdv o ∨ decode op od = .cdv o) ↔
      divideOpcode op = true ∧ comboDecode od = some o := by
  match op with
  | 0 | 1 | 2 | 3 | 4 | 5 | 6 | 7 =>
    cases h : comboDecode od <;> simp [decode, decodeCombo, divideOpcode, h]

/-! ### The tests of the status function -/

/-- Test 4 of R56 is met by the reserved pairs. -/
theorem comboOpcode_and_seven {op od : Cell} :
    (comboOpcode op && decide (od = 7)) = true ↔ (decode op od).isReserved = true := by
  rw [decode_isReserved]
  simp [comboOpcode, and_comm]

/-- Test 5 of R56 is met by the pairs of the divide family whose operand has a negative value. -/
theorem divideOpcode_and_negative {op od : Cell} {s : State} :
    (divideOpcode op && comboNegative od s) = true ↔
      ∃ o, (decode op od = .adv o ∨ decode op od = .bdv o ∨ decode op od = .cdv o) ∧ evalCombo o s < 0 := by
  simp only [decode_eq_divide, Bool.and_eq_true, comboNegative_iff, and_assoc, exists_and_left]

/-- A divide instruction with a negative operand stops with `NegativeShiftCount` (R92). -/
theorem exec_divide_of_neg {i : Instr} {o : Combo} {s : State} (hi : i = .adv o ∨ i = .bdv o ∨ i = .cdv o)
    (h : evalCombo o s < 0) : exec i s = .fault (.negativeShiftCount s.pc (evalCombo o s)) := by
  obtain rfl | rfl | rfl := hi <;> exact divide_of_neg h

/-- No way to stop has the status of a running machine (R88). -/
theorem Fault.status_ne_running (f : Fault) : f.status ≠ .running := by
  cases f <;> simp [Fault.status]

/-- A stop before the fetch has the status that tests 1 to 3 of R56 give. -/
theorem State.status_of_stopBeforeFetch {s : State} {f : Fault} (h : s.stopBeforeFetch = some f) :
    s.status = f.status := by
  obtain ⟨hend, rfl⟩ | ⟨hend, hspent, rfl⟩ | ⟨hend, hspent, hodd, rfl⟩ := (s.stopBeforeFetch_eq_some f).mp h
  · simp only [State.status, hend, if_true, Fault.status]
  · simp only [State.status, hend, hspent, if_true, if_false, Fault.status, Bool.false_eq_true]
  · simp only [State.status, hend, hspent, hodd, if_true, if_false, Fault.status, Bool.false_eq_true]

/-- Past the tests before the fetch the status is that of tests 4 and 5 of R56 on the fetched pair. -/
theorem State.status_of_fetchPair {s : State} {op od : Cell} (hstop : s.stopBeforeFetch = none)
    (hpair : s.fetchPair = some (op, od)) :
    s.status =
      if (comboOpcode op && decide (od = 7)) = true then .fault .invalidOperand
      else if (divideOpcode op && comboNegative od s) = true then .fault .negativeShiftCount
      else .running := by
  obtain ⟨hend, hspent, hodd⟩ := s.stopBeforeFetch_eq_none.mp hstop
  simp only [State.status, hend, hspent, hodd, hpair, Bool.false_eq_true, if_false]

/-- Tests 4 and 5 of R56 are exactly the conditions under which the fetched instruction faults, and with that status. -/
theorem exec_follows_status {s : State} {op od : Cell} (hstop : s.stopBeforeFetch = none)
    (hpair : s.fetchPair = some (op, od)) :
    (s.status = .running ∧ ∃ t, exec (decode op od) s = .next t) ∨
      ∃ f, exec (decode op od) s = .fault f ∧ s.status = f.status := by
  rw [State.status_of_fetchPair hstop hpair]
  split
  · next hseven => exact .inr ⟨_, exec_of_isReserved (comboOpcode_and_seven.mp hseven) s, rfl⟩
  · next hseven =>
    split
    · next hneg =>
      obtain ⟨o, hdiv, hk⟩ := divideOpcode_and_negative.mp hneg
      exact .inr ⟨_, exec_divide_of_neg hdiv hk, rfl⟩
    · next hneg =>
      refine .inl ⟨rfl, ?_⟩
      cases hexec : exec (decode op od) s with
      | next t => exact ⟨t, rfl⟩
      | refused r => exact absurd hexec (exec_ne_refused _ s r)
      | fault f =>
        obtain ⟨o, hdiv, hk, -⟩ | ⟨hres, -⟩ := exec_fault_cases hexec
        · exact absurd (divideOpcode_and_negative.mpr ⟨o, hdiv, hk⟩) hneg
        · exact absurd (comboOpcode_and_seven.mpr hres) hseven

/-! ### One step -/

/-- A test met before the fetch stops the step with its fault. -/
theorem step_of_stopBeforeFetch {s : State} {f : Fault} (hl : s.launched = true)
    (hstop : s.stopBeforeFetch = some f) : step s = .fault f := by
  unfold step
  rw [if_pos hl, hstop]
  rfl

/-- Past the tests before the fetch there is a pair to fetch (R33). -/
theorem State.exists_fetchPair {s : State} (hstop : s.stopBeforeFetch = none) :
    ∃ op od, s.fetchPair = some (op, od) := by
  obtain ⟨hend, -, -⟩ := s.stopBeforeFetch_eq_none.mp hstop
  have hlen : s.pc + 1 < s.prog.length := by simpa [State.atEnd] using hend
  exact ⟨_, _, State.fetchPair_eq hlen⟩

/-- A running machine completes the fetched instruction and counts it; any other stops with a fault of its status (R56). -/
theorem step_follows_status {s : State} (hl : s.launched = true) :
    (s.status = .running ∧ ∃ op od t, s.fetchPair = some (op, od) ∧ exec (decode op od) s = .next t ∧
      step s = .next t.countStep) ∨
    ∃ f, step s = .fault f ∧ s.status = f.status := by
  cases hstop : s.stopBeforeFetch with
  | some f => exact .inr ⟨f, step_of_stopBeforeFetch hl hstop, State.status_of_stopBeforeFetch hstop⟩
  | none =>
    obtain ⟨op, od, hpair⟩ := State.exists_fetchPair hstop
    have hstep := step_of_fetchInstr hl hstop (State.fetchInstr_eq_some.mpr ⟨op, od, hpair, rfl⟩)
    obtain ⟨hrun, t, ht⟩ | ⟨f, hf, hstatus⟩ := exec_follows_status hstop hpair
    · exact .inl ⟨hrun, op, od, t, hpair, ht, by rw [hstep, ht, commit]⟩
    · exact .inr ⟨f, by rw [hstep, hf, commit], hstatus⟩

/-- An instruction raises no halting fault (R89). -/
theorem exec_ne_halted (i : Instr) (s : State) : exec i s ≠ .fault .halted := by
  intro h
  obtain ⟨_, -, -, hf⟩ | ⟨-, hf⟩ := exec_fault_cases h <;> nomatch hf

/-! ### What each instruction writes -/

/-- A register is written by the divide that names it, and B by the bitwise family too; the output is written by OUT alone. -/
theorem exec_next_writes {i : Instr} {s t : State} (h : exec i s = .next t) :
    ((∀ o, i ≠ .adv o) → t.a = s.a) ∧
    ((∀ l, i ≠ .bxl l) → (∀ o, i ≠ .bst o) → (∀ x, i ≠ .bxc x) → (∀ o, i ≠ .bdv o) → t.b = s.b) ∧
    ((∀ o, i ≠ .cdv o) → t.c = s.c) ∧ ((∀ o, i ≠ .out o) → t.out = s.out) := by
  obtain ⟨d, o, hd, -, rfl⟩ | ⟨l, rfl, rfl⟩ | ⟨o, rfl, rfl⟩ | ⟨l, rfl, rfl⟩ | ⟨x, rfl, rfl⟩ | ⟨o, rfl, rfl⟩ :=
    exec_next_cases h
  case inl => obtain ⟨rfl, rfl⟩ | ⟨rfl, rfl⟩ | ⟨rfl, rfl⟩ := hd <;> simp
  case inr.inr.inr.inl => split <;> simp
  all_goals simp

end Sys2Proof.Machine
end

/-! SUPPORT. The statements about the arithmetic, the status function and what every instruction leaves (40_cycle_and_arith.md). -/
section
namespace Sys2Proof.Proofs

open Sys2Proof.Machine

/-- Settles O10: cell by cell from the definition, and the decoded operand has the cell's value. -/
theorem comboOperandValues : Obligations.ComboOperandValues :=
  fun s => ⟨rfl, rfl, rfl, rfl, rfl, rfl, rfl, rfl, fun od => combo_eq_map_comboDecode od s⟩

/-- Settles O11: the library's truncating remainder is the one the rule asks for, and no other quotient leaves such a remainder. -/
theorem truncatingQuotientIsUnique : Obligations.TruncatingQuotientIsUnique := by
  refine ⟨fun a b hb => ⟨tdiv_remainder a hb, fun q r => eq_tdiv_of_remainder, fun ha => ?_, fun ha => ?_⟩,
    fun a => ?_, by decide⟩
  · rw [tdiv_of_nonneg ha, Int.fdiv_eq_ediv_of_nonneg a hb.le]
  · rw [tdiv_of_neg ha, Int.fdiv_eq_ediv_of_nonneg (-a) hb.le]
  · rw [tdiv_eq_int_tdiv, Int.tdiv_one]

/-- Settles O12: the digits are the library's bits, which determine the integer. -/
theorem xorWorksDigitByDigit : Obligations.XorWorksDigitByDigit := by
  refine ⟨fun a b => ⟨digit_ixor a b, fun n hn => ?_, ixor_neg_iff a b⟩,
    fun n => ⟨ixor_zero n, ixor_self n, ixor_neg_one n⟩, by decide⟩
  exact eq_of_digit_eq fun i => (hn i).trans (digit_ixor a b i).symm

/-- Settles O13: `mod8` is the euclidean remainder, whose range a cell holds exactly. -/
theorem remainderModuloEight : Obligations.RemainderModuloEight := by
  refine ⟨fun a => ?_, by decide⟩
  obtain ⟨hlow, hhigh⟩ := mod8_range a
  have hfloor : mod8 a = a - 8 * Int.fdiv a 8 := by
    rw [mod8, Int.fdiv_eq_ediv_of_nonneg a (by decide)]
  exact ⟨hfloor, hlow, hhigh, toCell_val ⟨hlow, hhigh⟩⟩

/-- Settles O14: a shift is the floor of a quotient, of the magnitude with the sign put back, or of the dividend one below. -/
theorem divisionAsShiftOfMagnitude : Obligations.DivisionAsShiftOfMagnitude := by
  refine fun a k => ⟨fun ha => ?_, fun ha => ?_, fun ha hdvd => ?_⟩
  · rw [tdiv_of_nonneg ha, ediv_pow2]
  · rw [tdiv_of_neg ha, ediv_pow2]
  · rw [tdiv_eq_ediv_add_one (pow2_pos k) ha hdvd, ediv_pow2]

/-- Settles O15: a dividend below the power in magnitude has quotient zero, and an integer is below its own power of two. -/
theorem largeExponentGivesZero : Obligations.LargeExponentGivesZero := by
  refine ⟨fun a k _ => tdiv_eq_zero, fun a ha => ?_⟩
  exact tdiv_eq_zero (by have := pow2_pos a; omega) (lt_pow2_self ha)

/-- Settles O25: the writes of each instruction, the frame all share, and the one jump that is taken. -/
theorem instructionFrame : Obligations.InstructionFrame := by
  intro i s t h
  obtain ⟨ha, hb, hc, hout⟩ := exec_next_writes h
  obtain ⟨hprog, hsteps, hlimit, hodd⟩ := exec_next_frame h
  refine ⟨ha, hb, hc, hout, hprog, hsteps, hlimit, hodd, State.memRead_congr hprog, fun hnot => ?_⟩
  obtain hadv | ⟨l, hjnz, htaken, -⟩ := exec_next_pc h
  · exact hadv
  · exact absurd (hnot l hjnz) htaken

/-- Settles O31: the status function's tests are those of the step and of the fetched instruction. -/
theorem stepFollowsStatus : Obligations.StepFollowsStatus := by
  intro s hprog
  obtain ⟨hrun, op, od, t, hpair, ht, hstep⟩ | ⟨f, hstep, hstatus⟩ :=
    step_follows_status (s.launched_iff.mpr hprog)
  · obtain ⟨-, hsteps, -, -⟩ := exec_next_frame ht
    exact ⟨fun _ => ⟨op, od, t, hpair, ht, by rw [hstep, State.countStep, hsteps]⟩, fun h => absurd hrun h⟩
  · exact ⟨fun hrun => absurd (hstatus.symm.trans hrun) f.status_ne_running, fun _ => ⟨f, hstep, hstatus.symm⟩⟩

/-- Settles O32: the halting test is the step's first, and no other test or instruction answers that the machine halted. -/
theorem haltsExactlyWithoutFullPair : Obligations.HaltsExactlyWithoutFullPair := by
  intro s hprog
  rw [← s.atEnd_iff]
  constructor
  · intro hhalted
    obtain ⟨-, hstop | ⟨-, i, -, hexec⟩⟩ := step_fault_cases hhalted
    · simpa [State.stopBeforeFetch_eq_some] using hstop
    · exact absurd hexec (exec_ne_halted i s)
  · intro hend
    exact step_of_stopBeforeFetch (s.launched_iff.mpr hprog)
      ((s.stopBeforeFetch_eq_some .halted).mpr (.inl ⟨hend, rfl⟩))

end Sys2Proof.Proofs
end

/-! SUPPORT. Decoding in combo mode, and the quotients that need no division (41_divide.md). -/
section
namespace Sys2Proof

/-- A combo-mode row makes its instruction of the operand its cell decodes to (R46, R55). -/
theorem decodeCombo_of_comboDecode {od : Cell} {o : Combo} (h : comboDecode od = some o)
    (make : Combo → Instr) (reserved : Instr) : decodeCombo make reserved od = make o := by
  rw [decodeCombo, h]

end Sys2Proof

namespace Sys2Proof.Machine

/-- Division by the zeroth power of two is no change. -/
@[simp] theorem tdiv_pow2_zero (a : Int) : tdiv a (pow2 0) = a := by
  have hone : pow2 0 = 1 := rfl
  rw [hone, tdiv_eq_int_tdiv, Int.tdiv_one]

/-- The constant operand 0 has the divide family copy A to its destination (R72 to R74). -/
theorem divide_lit_zero (d : Reg) (s : State) : divide d (.lit 0) s = .next (s.setReg d s.a).advance := by
  have hzero : evalCombo (.lit 0) s = 0 := rfl
  rw [divide_of_nonneg hzero.ge, hzero, tdiv_pow2_zero]

/-- The operand A, where A is at least 0, has the divide family write 0: an integer is below its own power of two (R70). -/
theorem divide_reg_a {s : State} (h : 0 ≤ s.a) (d : Reg) : divide d (.reg .a) s = .next (s.setReg d 0).advance := by
  obtain ⟨-, hself⟩ := Proofs.largeExponentGivesZero
  have hval : evalCombo (.reg .a) s = s.a := rfl
  rw [divide_of_nonneg (h.trans_eq hval.symm), hval, hself s.a h]

end Sys2Proof.Machine
end

/-! SUPPORT. The statements about the divide family (41_divide.md). -/
section
namespace Sys2Proof.Proofs

open Sys2Proof.Machine

/-- Settles O16: ADV is the divide family's common behaviour with destination A. -/
theorem advDividesIntoA : Obligations.AdvDividesIntoA :=
  fun _ s => ⟨divide_of_nonneg, divide_of_neg, fun _ hod => decodeCombo_of_comboDecode hod _ _,
    exec_of_isReserved rfl s, divide_lit_zero .a s, fun ha => divide_reg_a ha .a⟩

/-- Settles O17: BDV is the divide family's common behaviour with destination B. -/
theorem bdvDividesIntoB : Obligations.BdvDividesIntoB :=
  fun _ s => ⟨divide_of_nonneg, divide_of_neg, fun _ hod => decodeCombo_of_comboDecode hod _ _,
    exec_of_isReserved rfl s, divide_lit_zero .b s⟩

/-- Settles O18: CDV is the divide family's common behaviour with destination C. -/
theorem cdvDividesIntoC : Obligations.CdvDividesIntoC :=
  fun _ s => ⟨divide_of_nonneg, divide_of_neg, fun _ hod => decodeCombo_of_comboDecode hod _ _,
    exec_of_isReserved rfl s, divide_lit_zero .c s⟩

end Sys2Proof.Proofs
end

/-! SUPPORT. Digits and sign of an exclusive-or with a literal, and the bitwise family's updates of the state (42_bitwise.md). -/
section
namespace Sys2Proof.Machine

/-! ### The arithmetic of the bitwise family -/

/-- A cell has three binary digits: from digit 3 on there are only zeros (R26). -/
theorem digit_cell_eq_zero (l : Cell) {i : Nat} (hi : 3 ≤ i) : digit l.val i = 0 := by
  have hlt : l.val < 2 ^ i := l.isLt.trans_le (Nat.pow_le_pow_right two_pos hi)
  have hbit : (l.val : Int).testBit i = false := Nat.testBit_lt_two_pow hlt
  rw [digit_eq_testBit, hbit]
  rfl

/-- Exclusive-or keeps a digit of its first argument where the second has the digit 0 (R67). -/
theorem digit_ixor_of_digit_eq_zero {a b : Int} {i : Nat} (h : digit b i = 0) :
    digit (ixor a b) i = digit a i := by
  rw [digit_ixor, h, digit_eq_testBit]
  cases a.testBit i <;> rfl

/-- Exclusive-or with a natural number keeps the sign (R67). -/
theorem ixor_natCast_neg_iff (a : Int) (n : Nat) : ixor a n < 0 ↔ a < 0 := by
  have hn : ¬(n : Int) < 0 := (Int.natCast_nonneg n).not_gt
  simp [ixor_neg_iff, hn]

/-- A cell is its own remainder modulo 8 (R68). -/
@[simp] theorem mod8_cell (n : Cell) : mod8 n.val = n.val := by
  rw [mod8_eq_emod]
  omega

/-! ### The instructions -/

/-- BXL's update of the state (R75). -/
theorem exec_bxl (l : Cell) (s : State) :
    exec (.bxl l) s = .next { s with b := ixor s.b l.val, pc := s.pc + 2 } := rfl

/-- BST's update of the state (R76). -/
theorem exec_bst (o : Combo) (s : State) :
    exec (.bst o) s = .next { s with b := mod8 (evalCombo o s), pc := s.pc + 2 } := rfl

/-- BXC's update of the state (R77). -/
theorem exec_bxc (x : Cell) (s : State) :
    exec (.bxc x) s = .next { s with b := ixor s.b s.c, pc := s.pc + 2 } := rfl

/-- The literal 0 leaves B as it is (R75). -/
theorem exec_bxl_zero (s : State) : exec (.bxl 0) s = .next { s with pc := s.pc + 2 } := by
  have hkept : ixor s.b (0 : Cell).val = s.b := ixor_zero s.b
  rw [exec_bxl, hkept]

/-- A constant operand is loaded as it is (R76). -/
theorem exec_bst_lit (n : Cell) (s : State) :
    exec (.bst (.lit n)) s = .next { s with b := n.val, pc := s.pc + 2 } := by
  rw [exec_bst, evalCombo, mod8_cell]

/-- BXC with zero in C leaves B as it is (R77). -/
theorem exec_bxc_of_c_eq_zero (x : Cell) {s : State} (h : s.c = 0) :
    exec (.bxc x) s = .next { s with pc := s.pc + 2 } := by
  have hkept : ixor s.b s.c = s.b := by rw [h, ixor_zero]
  rw [exec_bxc, hkept]

/-- BXC with the same value in B and C clears B (R77). -/
theorem exec_bxc_of_b_eq_c (x : Cell) {s : State} (h : s.b = s.c) :
    exec (.bxc x) s = .next { s with b := 0, pc := s.pc + 2 } := by
  have hzero : ixor s.b s.c = 0 := by rw [h, ixor_self]
  rw [exec_bxc, hzero]

end Sys2Proof.Machine
end

/-! SUPPORT. The statements about the bitwise family (42_bitwise.md). -/
section
namespace Sys2Proof.Proofs

open Sys2Proof.Machine

/-- Settles O19: a literal has no digit above the low three and no sign, so the exclusive-or keeps those of B. -/
theorem bxlXorsLiteralIntoB : Obligations.BxlXorsLiteralIntoB :=
  fun l s => ⟨exec_bxl l s, exec_bxl_zero s, fun _ hi => digit_ixor_of_digit_eq_zero (digit_cell_eq_zero l hi),
    fun hb => ixor_nonneg hb (Int.natCast_nonneg l.val), (ixor_natCast_neg_iff s.b l.val).mpr, rfl⟩

/-- Settles O20: B receives a remainder modulo 8, and a constant is its own. -/
theorem bstLoadsRemainderIntoB : Obligations.BstLoadsRemainderIntoB := by
  intro o s
  obtain ⟨hlow, hhigh⟩ := mod8_range (evalCombo o s)
  exact ⟨exec_bst o s, hlow, hhigh, fun n _ => exec_bst_lit n s,
    fun _ hod => decodeCombo_of_comboDecode hod _ _, exec_of_isReserved rfl s⟩

/-- Settles O21: exclusive-or with zero changes nothing, and of a value with itself gives zero. -/
theorem bxcXorsCIntoB : Obligations.BxcXorsCIntoB :=
  fun x s => ⟨exec_bxc x s, rfl, exec_bxc_of_c_eq_zero x, exec_bxc_of_b_eq_c x⟩

end Sys2Proof.Proofs
end

/-! SUPPORT. Where JNZ goes, and a step at a pair that stands in the Program (43_jump.md). -/
section
namespace Sys2Proof.Machine

/-! ### The instruction -/

/-- JNZ with A not zero sets the program counter to the literal, an absolute address (R79, R80). -/
theorem exec_jnz_of_a_ne_zero (l : Cell) {s : State} (h : s.a ≠ 0) :
    exec (.jnz l) s = .next { s with pc := l.val } := by
  have htaken : s.jumpTaken = true := decide_eq_true h
  rw [exec, execJnz, if_pos htaken, State.jumpTo]

/-- JNZ with A zero goes on to the next pair (R79). -/
theorem exec_jnz_of_a_eq_zero (l : Cell) {s : State} (h : s.a = 0) :
    exec (.jnz l) s = .next { s with pc := s.pc + 2 } := by
  have hnot : ¬s.jumpTaken = true := by simp [State.jumpTaken, h]
  rw [exec, execJnz, if_neg hnot, State.advance]

/-! ### The step -/

/-- The tests before a fetch in the terms of R58, R93 and R91: all three are passed. -/
theorem State.stopBeforeFetch_eq_none_iff (s : State) :
    s.stopBeforeFetch = none ↔
      s.pc + 1 < s.prog.length ∧ s.stepLimit ≠ some s.steps ∧ (s.pc % 2 = 0 ∨ s.oddFetch = .overlap) := by
  have hodd : s.misaligned = false ↔ s.pc % 2 = 0 ∨ s.oddFetch = .overlap := by
    cases h : s.oddFetch <;> simp [State.misaligned, h]
  rw [s.stopBeforeFetch_eq_none, hodd]
  simp [State.atEnd, State.budgetSpent]

/-- Two neighbouring cells of the Program are the pair fetched at the first one's address (R29, R30). -/
theorem State.fetchPair_of_cells {s : State} {op od : Cell} (hop : s.prog[s.pc]? = some op)
    (hod : s.prog[s.pc + 1]? = some od) : s.fetchPair = some (op, od) := by
  obtain ⟨_, rfl⟩ := List.getElem?_eq_some_iff.mp hop
  obtain ⟨hlen, rfl⟩ := List.getElem?_eq_some_iff.mp hod
  exact State.fetchPair_eq hlen

/-- A machine that has a full pair at its program counter is launched. -/
theorem State.launched_of_pair {s : State} (h : s.pc + 1 < s.prog.length) : s.launched = true :=
  s.launched_iff.mpr (List.ne_nil_of_length_pos (by omega))

/-- A step past the budget test, at an even address or under overlap, executes the pair that stands at the program counter (R32, R56). -/
theorem step_of_cells {s : State} {op od : Cell} (hop : s.prog[s.pc]? = some op)
    (hod : s.prog[s.pc + 1]? = some od) (hbudget : s.stepLimit ≠ some s.steps)
    (halign : s.pc % 2 = 0 ∨ s.oddFetch = .overlap) : step s = commit (exec (decode op od) s) := by
  obtain ⟨hlen, -⟩ := List.getElem?_eq_some_iff.mp hod
  exact step_of_fetchInstr (State.launched_of_pair hlen)
    (s.stopBeforeFetch_eq_none_iff.mpr ⟨hlen, hbudget, halign⟩)
    (State.fetchInstr_eq_some.mpr ⟨op, od, State.fetchPair_of_cells hop hod, rfl⟩)

/-- A step past the halting and budget tests, at an odd address and without overlap, faults (R91). -/
theorem step_of_misaligned {s : State} (hlen : s.pc + 1 < s.prog.length) (hbudget : s.stepLimit ≠ some s.steps)
    (hodd : s.pc % 2 = 1) (hfault : s.oddFetch = .fault) : step s = .fault (.misalignedFetch s.pc) := by
  have hend : s.atEnd = false := by simpa [State.atEnd] using hlen
  have hspent : s.budgetSpent = false := by simpa [State.budgetSpent] using hbudget
  exact step_of_stopBeforeFetch (State.launched_of_pair hlen)
    ((s.stopBeforeFetch_eq_some _).mpr (.inr (.inr ⟨hend, hspent, s.misaligned_iff.mpr ⟨hodd, hfault⟩, rfl⟩)))

end Sys2Proof.Machine
end

/-! SUPPORT. The statements about control transfer (43_jump.md). -/
section
namespace Sys2Proof.Proofs

open Sys2Proof.Machine

/-- Settles O22: the two branches of JNZ's condition on the whole value of A. -/
theorem jnzTestsTheWholeOfA : Obligations.JnzTestsTheWholeOfA :=
  fun l _ => ⟨exec_jnz_of_a_ne_zero l, exec_jnz_of_a_eq_zero l, rfl⟩

/-- Settles O39: the taken JNZ leaves the literal as program counter, where the halting test compares it with the length (R58); a literal is at
most 7. -/
theorem jumpOutOfTheProgramHalts : Obligations.JumpOutOfTheProgramHalts := by
  intro l s hprog ha
  have hhalts : step ({ s with pc := l.val } : State).countStep = .fault .halted ↔ s.len ≤ l.val + 1 :=
    haltsExactlyWithoutFullPair ({ s with pc := l.val } : State).countStep hprog
  refine ⟨_, exec_jnz_of_a_ne_zero l ha, hhalts, fun htwo hl => hhalts.mpr ?_, fun hfour hl => hhalts.mpr ?_,
    fun hten hhalted => ?_⟩
  · have hpos : 0 < l.val := Fin.pos_iff_ne_zero.mpr hl
    omega
  · omega
  · have hend : s.len ≤ l.val + 1 := hhalts.mp hhalted
    omega

/-- Settles O40: the JNZ is executed and counted whatever its literal; the setting of `ODD_FETCH` is asked at the next fetch, at the odd
address (R83). -/
theorem oddJumpInsideTheProgram : Obligations.OddJumpInsideTheProgram := by
  intro l op od s _ halign hbudget hjnz hlit hodd hinside hop hod
  have hstep : step s = commit (exec (.jnz l) s) := step_of_cells hjnz hlit hbudget halign
  refine ⟨fun ha => ⟨?_, fun hnext hfault => ?_, fun hnext hoverlap => ?_⟩, fun ha => ?_⟩
  · rw [hstep, exec_jnz_of_a_ne_zero l ha]
    rfl
  · exact step_of_misaligned hinside hnext hodd hfault
  · exact step_of_cells hop hod hnext (.inr hoverlap)
  · rw [hstep, exec_jnz_of_a_eq_zero l ha]
    rfl

end Sys2Proof.Proofs
end

/-! SUPPORT. What OUT emits, and what a step does to the output (44_output.md). -/
section
namespace Sys2Proof.Machine

/-! ### The instruction -/

/-- A remainder modulo 8 is kept exactly by the cell that is emitted (R68). -/
theorem toCell_mod8_val (a : Int) : ((toCell (mod8 a)).val : Int) = mod8 a :=
  toCell_val (mod8_range a)

/-- The number of a cell, as a cell again, is the cell (R26). -/
@[simp] theorem toCell_cell (n : Cell) : toCell n.val = n :=
  Fin.ofNat_val_eq_self n

/-- OUT's update of the state (R85). -/
theorem exec_out (o : Combo) (s : State) :
    exec (.out o) s = .next { s with out := s.out ++ [toCell (mod8 (evalCombo o s))], pc := s.pc + 2 } := rfl

/-- A constant operand is emitted as it is (R85). -/
theorem exec_out_lit (n : Cell) (s : State) :
    exec (.out (.lit n)) s = .next { s with out := s.out ++ [n], pc := s.pc + 2 } := by
  rw [exec_out, evalCombo, mod8_cell, toCell_cell]

/-! ### The step -/

/-- The next instruction is OUT exactly when the fetch gives OUT with some operand. -/
theorem State.outNext_iff (s : State) : s.outNext = true ↔ ∃ o, s.fetchInstr = some (.out o) := by
  unfold State.outNext
  split
  · next o hfetch => exact iff_of_true rfl ⟨o, hfetch⟩
  · next hnot => exact iff_of_false Bool.false_ne_true fun ⟨o, hfetch⟩ => hnot o hfetch

/-- A step that executes OUT appends the remainder of its operand. -/
theorem step_next_out_of_out {s t : State} {o : Combo} (h : step s = .next t)
    (hfetch : s.fetchInstr = some (.out o)) : t.out = s.out ++ [toCell (mod8 (evalCombo o s))] := by
  obtain ⟨-, -, i, u, hi, hu, rfl⟩ := step_next_cases h
  obtain rfl : .out o = i := Option.some.inj (hfetch.symm.trans hi)
  rw [← Host.Outcome.next.inj ((exec_out o s).symm.trans hu), State.countStep_out]

/-- A step that executes another instruction leaves the output as it is. -/
theorem step_next_out_of_not_out {s t : State} (h : step s = .next t)
    (hnot : ∀ o, s.fetchInstr ≠ some (.out o)) : t.out = s.out := by
  obtain ⟨-, -, i, u, hi, hu, rfl⟩ := step_next_cases h
  obtain ⟨-, -, -, hkept⟩ := exec_next_writes hu
  exact hkept fun o hout => hnot o (hout ▸ hi)

/-- A step appends one value to the output when it executes OUT, and leaves the output as it is otherwise (R85, R86). -/
theorem step_next_out {s t : State} (h : step s = .next t) :
    if s.outNext then ∃ v : Cell, t.out = s.out ++ [v] else t.out = s.out := by
  split
  · next hout =>
    obtain ⟨o, hfetch⟩ := s.outNext_iff.mp hout
    exact ⟨_, step_next_out_of_out h hfetch⟩
  · next hnot => exact step_next_out_of_not_out h fun o hfetch => hnot (s.outNext_iff.mpr ⟨o, hfetch⟩)

/-- The output before a step is an initial part of the output after it. -/
theorem step_next_out_prefix {s t : State} (h : step s = .next t) : s.out <+: t.out := by
  have hout := step_next_out h
  split at hout
  · obtain ⟨v, hv⟩ := hout
    exact ⟨[v], hv.symm⟩
  · exact hout ▸ List.prefix_rfl

end Sys2Proof.Machine
end

/-! SUPPORT. The statements about the output (44_output.md). -/
section
namespace Sys2Proof.Proofs

open Sys2Proof.Machine

/-- Settles O46: a step only ever appends to the output, so by induction the whole run does (R86). -/
theorem outputGrowsOnlyAtItsEnd : Obligations.OutputGrowsOnlyAtItsEnd := by
  refine ⟨fun s t hreach => ?_, fun _ _ => step_next_out⟩
  exact hreach.keeps (P := fun u => s.out <+: u.out)
    (fun hprefix hstep => hprefix.trans (step_next_out_prefix hstep)) List.prefix_rfl

/-- Settles O23: the emitted cell holds the remainder exactly, and a constant is its own remainder. -/
theorem outEmitsRemainder : Obligations.OutEmitsRemainder :=
  fun o s => ⟨⟨_, toCell_mod8_val (evalCombo o s), exec_out o s⟩, fun n _ => exec_out_lit n s,
    fun _ hod => decodeCombo_of_comboDecode hod _ _, exec_of_isReserved rfl s⟩

end Sys2Proof.Proofs
end

/-! SUPPORT. The load check, and under which conditions a step and an instruction stop with each fault (60_exceptions.md). -/
section
namespace Sys2Proof.Machine

/-! ### The load check -/

@[simp] theorem cellValue_iff (v : Int) : cellValue v = true ↔ 0 ≤ v ∧ v ≤ 7 := by
  simp [cellValue]

/-- The search for a bad cell finds none exactly when every value is one a cell can hold. -/
theorem firstBadCell_eq_none_iff (p : List Int) (n : Nat) :
    firstBadCell n p = none ↔ ∀ v ∈ p, 0 ≤ v ∧ v ≤ 7 := by
  induction p generalizing n with
  | nil => simp [firstBadCell]
  | cons w rest ih =>
    by_cases hw : 0 ≤ w ∧ w ≤ 7
    · simp [firstBadCell, hw, ih]
    · simp [firstBadCell, hw]

/-- The search for a bad cell finds the first value that no cell can hold, at its index counted from `n`. -/
theorem firstBadCell_eq_some {p : List Int} {i : Nat} {v : Int} (hv : p[i]? = some v) (hbad : ¬(0 ≤ v ∧ v ≤ 7))
    (hbelow : ∀ (j : Nat) (w : Int), j < i → p[j]? = some w → 0 ≤ w ∧ w ≤ 7) (n : Nat) :
    firstBadCell n p = some (n + i, v) := by
  induction p generalizing n i with
  | nil => simp at hv
  | cons w rest ih =>
    cases i with
    | zero =>
      obtain rfl : w = v := by simpa using hv
      simp [firstBadCell, hbad]
    | succ i =>
      have hw : 0 ≤ w ∧ w ≤ 7 := hbelow 0 w i.succ_pos rfl
      have hrest := ih hv (fun j u hj hu => hbelow (j + 1) u (Nat.succ_lt_succ hj) hu) (n + 1)
      simp only [firstBadCell, (cellValue_iff w).mpr hw, if_true, hrest]
      congr 2
      omega

/-- The third test of the load check, for a Program that passes the first two (R109). -/
theorem loadCheck_of_even {p : List Int} (hne : p.length ≠ 0) (heven : p.length % 2 = 0) :
    loadCheck p = (firstBadCell 0 p).map fun bad => .cellOutOfRange bad.1 bad.2 := by
  rw [loadCheck, if_neg hne, if_neg (by omega)]
  cases firstBadCell 0 p <;> rfl

/-- The load check finds nothing exactly in a well-formed Program (R94). -/
theorem loadCheck_eq_none_iff (p : List Int) : loadCheck p = none ↔ wellFormedLoad p := by
  by_cases hne : p.length = 0
  · simp [loadCheck, hne]
  by_cases hodd : p.length % 2 = 1
  · simp [loadCheck, hne, hodd]
  have heven : p.length % 2 = 0 := by omega
  have htwo : 2 ≤ p.length := by omega
  rw [loadCheck_of_even hne heven, Option.map_eq_none_iff, firstBadCell_eq_none_iff]
  exact ⟨fun hcells => ⟨heven, htwo, hcells⟩, fun ⟨_, _, hcells⟩ => hcells⟩

section Launch
variable {p : List Int} (a b c : Int) (limit : Option Nat) (odd : OddFetch)

/-- What the load check finds is why the launch is refused (R94). -/
theorem launch_of_malformed {reason : Malformed} (h : loadCheck p = some reason) :
    launch p a b c limit odd = .refused (.malformedProgram reason) := by
  rw [launch, h]

/-- A well-formed Program is launched (R110). -/
theorem launch_of_wellFormed (h : wellFormedLoad p) :
    launch p a b c limit odd = .next (launchState p a b c limit odd) :=
  launch_eq_next.mpr ⟨(loadCheck_eq_none_iff p).mpr h, rfl⟩

end Launch

/-- The cell of a launched Program at an index is the value the host gave there (R110). -/
theorem launchState_prog_getElem? {p : List Int} {i : Nat} {v : Cell} (h : p[i]? = some (v.val : Int))
    (a b c : Int) (limit : Option Nat) (odd : OddFetch) : (launchState p a b c limit odd).prog[i]? = some v := by
  rw [launchState, List.getElem?_map, h, Option.map_some, toCell_cell]

/-! ### When an instruction faults -/

/-- An instruction faults when it is a divide with a negative operand or a reserved row, and only then (R90, R92). -/
theorem exec_eq_fault_iff {i : Instr} {s : State} {f : Fault} :
    exec i s = .fault f ↔
      (∃ o, (i = .adv o ∨ i = .bdv o ∨ i = .cdv o) ∧ evalCombo o s < 0 ∧
        f = .negativeShiftCount s.pc (evalCombo o s)) ∨
      (i.isReserved = true ∧ f = .invalidOperand s.pc i.opcode) := by
  refine ⟨exec_fault_cases, ?_⟩
  rintro (⟨o, hdiv, hneg, rfl⟩ | ⟨hres, rfl⟩)
  · exact exec_divide_of_neg hdiv hneg
  · exact exec_of_isReserved hres s

/-- A pair raises `InvalidOperand` when its opcode has combo mode and its operand is 7, recording program counter and opcode (R90). -/
theorem exec_decode_eq_invalidOperand_iff {op od op' : Cell} {s : State} {p : Nat} :
    exec (decode op od) s = .fault (.invalidOperand p op') ↔
      (od = 7 ∧ (op = 0 ∨ op = 2 ∨ op = 5 ∨ op = 6 ∨ op = 7)) ∧ p = s.pc ∧ op' = op := by
  simp [exec_eq_fault_iff, decode_isReserved, decode_opcode]

/-- A pair raises `NegativeShiftCount` when it is a divide whose operand has a negative value, recording program counter and value (R92). -/
theorem exec_decode_eq_negativeShiftCount_iff {op od : Cell} {s : State} {p : Nat} {k : Int} :
    exec (decode op od) s = .fault (.negativeShiftCount p k) ↔
      divideOpcode op = true ∧ combo od s = some k ∧ k < 0 ∧ p = s.pc := by
  rw [exec_eq_fault_iff, combo_eq_map_comboDecode]
  simp only [decode_eq_divide, Fault.negativeShiftCount.injEq, reduceCtorEq, and_false, or_false, Option.map_eq_some_iff]
  constructor
  · rintro ⟨o, ⟨hop, hod⟩, hneg, rfl, rfl⟩
    exact ⟨hop, ⟨o, hod, rfl⟩, hneg, rfl⟩
  · rintro ⟨hop, ⟨o, hod, rfl⟩, hneg, rfl⟩
    exact ⟨o, ⟨hop, hod⟩, hneg, rfl, rfl⟩

/-- A constant operand is not negative, so a negative value comes from a register (R92). -/
theorem operand_of_combo_neg {od : Cell} {s : State} {k : Int} (h : combo od s = some k) (hk : k < 0) :
    od = 4 ∨ od = 5 ∨ od = 6 := by
  match od with
  | 0 | 1 | 2 | 3 =>
    obtain rfl := Option.some.inj h
    exact absurd hk (by decide)
  | 4 | 5 | 6 => simp
  | 7 => nomatch h

/-! ### When a step stops -/

/-- A step stops with a fault when a test before the fetch is met, or when all are passed and the pair fetched faults (R56). -/
theorem step_eq_fault_iff {s : State} {f : Fault} :
    step s = .fault f ↔
      (s.launched = true ∧ s.stopBeforeFetch = some f) ∨
      (s.readyToFetch ∧ ∃ op od, s.fetchPair = some (op, od) ∧ exec (decode op od) s = .fault f) := by
  constructor
  · intro h
    obtain ⟨hl, hstop | ⟨hstop, i, hfetch, hexec⟩⟩ := step_fault_cases h
    · exact .inl ⟨hl, hstop⟩
    · obtain ⟨op, od, hpair, rfl⟩ := State.fetchInstr_eq_some.mp hfetch
      exact .inr ⟨⟨hl, hstop⟩, op, od, hpair, hexec⟩
  · rintro (⟨hl, hstop⟩ | ⟨⟨hl, hstop⟩, op, od, hpair, hexec⟩)
    · exact step_of_stopBeforeFetch hl hstop
    · rw [step_of_fetchInstr hl hstop (State.fetchInstr_eq_some.mpr ⟨op, od, hpair, rfl⟩), hexec, commit]

/-- A step stops at the ceiling when a full pair is left and the step count equals the ceiling (R93); no instruction stops so. -/
theorem step_eq_budgetExhausted_iff {s : State} :
    step s = .fault .budgetExhausted ↔ s.pc + 1 < s.prog.length ∧ s.stepLimit = some s.steps := by
  have hstop : s.stopBeforeFetch = some .budgetExhausted ↔ s.pc + 1 < s.prog.length ∧ s.stepLimit = some s.steps := by
    simp [State.stopBeforeFetch_eq_some, State.atEnd]
  constructor
  · intro h
    obtain ⟨-, hbefore⟩ | ⟨-, op, od, -, hexec⟩ := step_eq_fault_iff.mp h
    · exact hstop.mp hbefore
    · simp [exec_eq_fault_iff] at hexec
  · rintro ⟨hlen, hlimit⟩
    exact step_of_stopBeforeFetch (State.launched_of_pair hlen) (hstop.mpr ⟨hlen, hlimit⟩)

/-- A step stops with `MisalignedFetch` when the halting and budget tests are passed and the program counter is odd without overlap, which it
records (R91); no instruction stops so. -/
theorem step_eq_misalignedFetch_iff {s : State} {p : Nat} :
    step s = .fault (.misalignedFetch p) ↔
      s.pc + 1 < s.prog.length ∧ s.stepLimit ≠ some s.steps ∧ s.pc % 2 = 1 ∧ s.oddFetch = .fault ∧ p = s.pc := by
  constructor
  · intro h
    obtain ⟨-, hstop⟩ | ⟨-, op, od, -, hexec⟩ := step_eq_fault_iff.mp h
    · simpa [State.stopBeforeFetch_eq_some, State.atEnd, State.budgetSpent, and_assoc] using hstop
    · simp [exec_eq_fault_iff] at hexec
  · rintro ⟨hlen, hbudget, hodd, hfault, rfl⟩
    exact step_of_misaligned hlen hbudget hodd hfault

/-- A step that answers a next state keeps the step count within the ceiling: it began below it (R93). -/
theorem step_keeps_withinBudget {s t : State} (hs : s.withinBudget) (h : step s = .next t) : t.withinBudget := by
  obtain ⟨-, hstop, -⟩ := step_next_cases h
  obtain ⟨-, hbelow, -⟩ := s.stopBeforeFetch_eq_none_iff.mp hstop
  obtain ⟨-, hsteps, hlimit, -⟩ := step_next_frame h
  intro n hn
  have hle : s.steps ≤ n := hs n (hlimit ▸ hn)
  have hne : n ≠ s.steps := fun heq => hbelow (hlimit ▸ heq ▸ hn)
  omega

/-- From an even program counter only a taken JNZ with an odd literal leads to an odd one (R31). -/
theorem exec_next_pc_odd_iff {i : Instr} {s t : State} (heven : s.pc % 2 = 0) (h : exec i s = .next t) :
    t.pc % 2 = 1 ↔ oddJumpTaken i s := by
  constructor
  · intro hodd
    obtain hadv | ⟨l, rfl, ha, hpc⟩ := exec_next_pc h
    · omega
    · exact ⟨l, rfl, hpc ▸ hodd, ha⟩
  · rintro ⟨l, rfl, hodd, ha⟩
    obtain rfl := Host.Outcome.next.inj ((exec_jnz_of_a_ne_zero l ha).symm.trans h)
    exact hodd

/-! ### Stopped states -/

/-- A machine whose status is not Running has no next state (R56, R99). -/
theorem State.stopped_of_status_ne_running {s : State} (h : s.status ≠ .running) : s.stopped := by
  intro t ht
  obtain ⟨hl, -, -⟩ := step_next_cases ht
  obtain ⟨hrun, -⟩ | ⟨f, hf, -⟩ := step_follows_status hl
  · exact h hrun
  · simp [hf] at ht

/-- A run from a stopped state reaches that state only (R99). -/
theorem Reaches.eq_of_stopped {s t : State} (h : Reaches s t) (hs : s.stopped) : t = s :=
  h.keeps (P := (· = s)) (fun hu hstep => absurd (hu ▸ hstep) (hs _)) rfl

end Sys2Proof.Machine
end

/-! SUPPORT. The statements about the ways a run stops (60_exceptions.md). -/
section
namespace Sys2Proof.Proofs

open Sys2Proof.Machine

/-- Settles O2: the load check's tests one after the other, and its finding nothing is well-formedness. -/
theorem launchChecksProgramInOrder : Obligations.LaunchChecksProgramInOrder := by
  intro p a b c limit odd
  refine ⟨fun hempty => ?_, fun hodd => ?_, fun i v hne heven hv hbad hbelow => ?_, ?_⟩
  · exact launch_of_malformed a b c limit odd (if_pos hempty)
  · have hne : p.length ≠ 0 := by omega
    exact launch_of_malformed a b c limit odd (by rw [loadCheck, if_neg hne, if_pos hodd])
  · refine launch_of_malformed a b c limit odd ?_
    rw [loadCheck_of_even hne heven, firstBadCell_eq_some hv hbad hbelow 0, Nat.zero_add, Option.map_some]
  · simp only [launch_eq_next, loadCheck_eq_none_iff, exists_and_left, exists_eq, and_true]

/-- Settles O33: the budget test's condition, met at launch with the ceiling 0, never without a ceiling, and not by a step that is made. -/
theorem budgetStopsAtTheCeiling : Obligations.BudgetStopsAtTheCeiling := by
  refine ⟨fun s _ => step_eq_budgetExhausted_iff, fun p a b c odd t hlaunch => ?_, fun s hnone hstep => ?_,
    fun s t => step_keeps_withinBudget⟩
  · obtain ⟨hcheck, rfl⟩ := launch_eq_next.mp hlaunch
    obtain ⟨-, htwo, -⟩ := (loadCheck_eq_none_iff p).mp hcheck
    exact step_eq_budgetExhausted_iff.mpr ⟨htwo.trans_eq (List.length_map _).symm, rfl⟩
  · obtain ⟨-, hlimit⟩ := step_eq_budgetExhausted_iff.mp hstep
    simp [hnone] at hlimit

/-- Settles O34: the alignment test's condition, and the one jump that leaves the even addresses. -/
theorem misalignedFetchExactly : Obligations.MisalignedFetchExactly := by
  refine ⟨fun s p => step_eq_misalignedFetch_iff.trans (iff_and_self.mpr ?_), fun i s t => exec_next_pc_odd_iff⟩
  rintro ⟨hlen, -⟩
  exact s.launched_iff.mp (State.launched_of_pair hlen)

/-- Settles O35: only a fetched reserved pair raises the fault, and the load check tests no pairs. -/
theorem invalidOperandExactly : Obligations.InvalidOperandExactly := by
  refine ⟨fun s p op => ?_, fun p i op a b c limit odd hwf _ _ hop hseven => ?_⟩
  · simp only [step_eq_fault_iff, exec_decode_eq_invalidOperand_iff]
    constructor
    · rintro (⟨-, hstop⟩ | ⟨hready, op', od, hpair, ⟨rfl, hcombo⟩, hp, rfl⟩)
      · simp [State.stopBeforeFetch_eq_some] at hstop
      · exact ⟨hready, hpair, hcombo, hp⟩
    · rintro ⟨hready, hpair, hcombo, hp⟩
      exact .inr ⟨hready, op, 7, hpair, ⟨rfl, hcombo⟩, hp, rfl⟩
  · exact ⟨_, launch_of_wellFormed a b c limit odd hwf, launchState_prog_getElem? hop a b c limit odd,
      launchState_prog_getElem? (v := 7) hseven a b c limit odd⟩

/-- Settles O36: only a fetched divide with a negative operand raises the fault, and a negative operand is a register's. -/
theorem negativeShiftCountExactly : Obligations.NegativeShiftCountExactly := by
  refine ⟨fun s p k => ?_, fun s p k hs => step_ne_negativeShiftCount hs p k⟩
  simp only [step_eq_fault_iff, exec_decode_eq_negativeShiftCount_iff, divideOpcode, decide_eq_true_eq]
  constructor
  · rintro (⟨-, hstop⟩ | ⟨hready, op, od, hpair, hop, hval, hneg, hp⟩)
    · simp [State.stopBeforeFetch_eq_some] at hstop
    · exact ⟨hready, hp, hneg, op, od, hpair, hop, operand_of_combo_neg hval hneg, hval⟩
  · rintro ⟨hready, hp, hneg, op, od, hpair, hop, -, hval⟩
    exact .inr ⟨hready, op, od, hpair, hop, hval, hneg, hp⟩

/-- Settles O37: a status other than Running leaves no next state, so every run stays where it is. -/
theorem stoppedStatesAreAbsorbing : Obligations.StoppedStatesAreAbsorbing := by
  intro s hstatus
  have hstopped : s.stopped := State.stopped_of_status_ne_running hstatus
  exact ⟨hstopped, fun t ht => ht.eq_of_stopped hstopped, fun t ht => by rw [ht.eq_of_stopped hstopped],
    runFor_of_stopped hstopped⟩

end Sys2Proof.Proofs
end

/-! SUPPORT. The result at a state whose step stops, and of a Program that cannot be launched (70_reset_and_hazards.md). -/
section
namespace Sys2Proof.Machine

/-! ### The result at a stopped state -/

/-- Halted gives the complete output (R119). -/
theorem resultOf_of_halted {s : State} (h : step s = .fault .halted) : resultOf s = .output s.out := by
  rw [resultOf, h]

/-- BudgetExhausted gives the truncated prefix of the output (R119). -/
theorem resultOf_of_budgetExhausted {s : State} (h : step s = .fault .budgetExhausted) :
    resultOf s = .didNotHalt s.out := by
  rw [resultOf, h]

/-- Any other fault is itself the result, without the output (R119). -/
theorem resultOf_of_hard_fault {s : State} {f : Fault} (h : step s = .fault f) (hhalted : f ≠ .halted)
    (hbudget : f ≠ .budgetExhausted) : resultOf s = .failed f := by
  rw [resultOf, h]
  cases f with
  | halted => exact absurd rfl hhalted
  | budgetExhausted => exact absurd rfl hbudget
  | invalidOperand p op => rfl
  | misalignedFetch p => rfl
  | negativeShiftCount p k => rfl

/-! ### The result of a malformed Program -/

/-- What the load check finds is why there is no run (R94, R119). -/
theorem execute_of_malformed {p : List Int} {reason : Malformed} (h : loadCheck p = some reason) (a b c : Int)
    (ceiling : Nat) (odd : OddFetch) : execute p a b c ceiling odd = .noRun (.malformedProgram reason) := by
  rw [execute, launch_of_malformed a b c (some ceiling) odd h]

end Sys2Proof.Machine
end

/-! SUPPORT. The statement about the result of a run (70_reset_and_hazards.md). -/
section
namespace Sys2Proof.Proofs

open Sys2Proof.Machine

/-- Settles O38: each fault of a step has its own result, and a Program that is not well-formed fails the load check. -/
theorem resultOfEachOutcome : Obligations.ResultOfEachOutcome := by
  refine ⟨fun s => ⟨resultOf_of_halted, resultOf_of_budgetExhausted, fun f => resultOf_of_hard_fault⟩,
    fun p a b c n odd hmalformed => ?_⟩
  have hfails : loadCheck p ≠ none := mt (loadCheck_eq_none_iff p).mp hmalformed
  obtain ⟨reason, hreason⟩ := Option.ne_none_iff_exists'.mp hfails
  exact ⟨reason, execute_of_malformed hreason a b c n odd⟩

end Sys2Proof.Proofs
end

/-! SUPPORT. The encoder against the decoder: combo operands, pairs, words of the table and whole programs (30_encoding.md). -/
section
namespace Sys2Proof

/-- The cell of a well-formed combo operand decodes to it (R46). -/
theorem comboDecode_encode {o : Combo} (h : o.wf = true) : comboDecode o.encode = some o := by
  match o with
  | .reg .a | .reg .b | .reg .c => rfl
  | .lit 0 | .lit 1 | .lit 2 | .lit 3 => rfl
  | .lit 4 | .lit 5 | .lit 6 | .lit 7 => exact absurd h (by decide)

/-- The pair of a well-formed instruction decodes to it, whatever its row (R48, R55). -/
theorem decode_encode {i : Instr} (h : i.wf = true) : decode i.opcode i.operand = i := by
  cases i with
  | adv o | bst o | out o | bdv o | cdv o => exact decodeCombo_of_comboDecode (comboDecode_encode h) _ _
  | bxl l | jnz l | bxc x => rfl
  | reservedAdv7 | reservedBst7 | reservedOut7 | reservedBdv7 | reservedCdv7 => rfl

/-- Decoding keeps the operand cell, the ignored operand of BXC among them (log 7). -/
theorem decode_operand (op od : Cell) : (decode op od).operand = od := by
  decide +revert

/-- Every pair decodes to an instruction that an encoding has. -/
theorem decode_wf (op od : Cell) : (decode op od).wf = true := by
  decide +revert

/-- The upper half of an instruction's word is its opcode (R43). -/
theorem wordOpcode_encodeWord (i : Instr) : wordOpcode (encodeWord i) = i.opcode := by
  obtain ⟨-, hupper⟩ := Laws.SixBitWord.of_word i
  rw [wordOpcode, hupper]
  exact Fin.ofNat_val_eq_self _

/-- The lower half of an instruction's word is its operand cell (R43). -/
theorem wordOperand_encodeWord (i : Instr) : wordOperand (encodeWord i) = i.operand := by
  apply Fin.ext
  have hlower : (wordOperand (encodeWord i)).val = encodeWord i % 8 := rfl
  rw [hlower, encodeWord]
  omega

/-- A six-bit word is the pair of its two halves (R43). -/
theorem decodeTableWord_of_lt {w : Nat} (h : w < 64) (nbits : Nat) :
    decodeTableWord nbits w = some (decode (wordOpcode w) (wordOperand w)) := by
  simp only [decodeTableWord, decodeWord, decodeCells, if_pos h]

/-- A word with a bit above bit 5 is no instruction (R41, R43). -/
theorem decodeTableWord_of_le {w : Nat} (h : 64 ≤ w) (nbits : Nat) : decodeTableWord nbits w = none := by
  simp only [decodeTableWord, decodeWord, if_neg (not_lt.mpr h)]

/-- The word of a well-formed instruction decodes to it. -/
theorem decodeTableWord_encodeWord {i : Instr} (h : i.wf = true) (nbits : Nat) :
    decodeTableWord nbits (encodeWord i) = some i := by
  obtain ⟨hlt, -⟩ := Laws.SixBitWord.of_word i
  rw [decodeTableWord_of_lt hlt, wordOpcode_encodeWord, wordOperand_encodeWord, decode_encode h]

/-- The pairs of a program assembled from well-formed instructions decode to them in order (R31). -/
theorem disassemble_assemble {is : List Instr} (h : ∀ i ∈ is, i.wf = true) :
    disassemble (assemble is) = .ok is := by
  induction is with
  | nil => rfl
  | cons i rest ih =>
    obtain ⟨hi, hrest⟩ := List.forall_mem_cons.mp h
    simp only [assemble, encode, List.cons_append, List.nil_append, disassemble, ih hrest, decode_encode hi]

/-- An assembled program has two cells for each instruction (R42). -/
theorem length_assemble (is : List Instr) : (assemble is).length = 2 * is.length := by
  induction is with
  | nil => rfl
  | cons i rest ih =>
    simp only [assemble, encode, List.length_append, List.length_cons, List.length_nil, ih]
    omega

end Sys2Proof
end

/-! SUPPORT. The statements about decoder and encoder (30_encoding.md). -/
section
namespace Sys2Proof.Proofs

/-- Settles O5: a combo operand's cell decodes to it, so every row's pair does; the table's word is that pair. -/
theorem decodeOfEncodeGivesTheInstruction : Obligations.DecodeOfEncodeGivesTheInstruction := by
  intro i hi
  refine ⟨decode_encode hi, fun rest => ?_, decodeTableWord_encodeWord hi⟩
  simp only [encode, List.cons_append, List.nil_append, decodeCells, decode_encode hi]

/-- Settles O6: the 64 pairs one by one, and a longer word has stray bits. -/
theorem everyPairHasOneInstruction : Obligations.EveryPairHasOneInstruction :=
  ⟨fun op od => ⟨decode_wf op od, decode_opcode op od, decode_operand op od⟩,
    fun nbits _ hw => decodeTableWord_of_le hw nbits⟩

/-- Settles O7: nine words decoded by evaluation. -/
theorem tableWordsDecodeAsWritten : Obligations.TableWordsDecodeAsWritten := by
  unfold Obligations.TableWordsDecodeAsWritten
  decide

/-- Settles O8: by induction, each instruction adds one pair, which decodes to it. -/
theorem disassembleOfAssemble : Obligations.DisassembleOfAssemble :=
  fun is h => ⟨disassemble_assemble h, length_assemble is⟩

end Sys2Proof.Proofs
end

/-! SUPPORT. Reads of program memory, and the state in which a word is placed at the next fetch (20_memory.md). -/
section
namespace Sys2Proof.Machine

/-! ### Reads -/

/-- A read inside the Program gives the cells from its address on (R27). -/
theorem State.memRead_of_le {s : State} {addr n : Nat} (h : addr + n ≤ s.prog.length) :
    s.memRead addr n = some ((s.prog.drop addr).take n) :=
  if_pos h

/-- A read that leaves the Program is not defined (R27). -/
theorem State.memRead_of_lt {s : State} {addr n : Nat} (h : s.prog.length < addr + n) : s.memRead addr n = none :=
  if_neg (not_le.mpr h)

/-! ### Placing a pair -/

/-- The pair placed at an address is read there. -/
theorem placePair_getElem? (cells : List Cell) (addr : Nat) (op od : Cell) :
    (placePair cells addr op od)[addr]? = some op ∧ (placePair cells addr op od)[addr + 1]? = some od := by
  have hlen := placePair_length cells addr op od
  simp only [placePair, List.length_set] at hlen ⊢
  constructor
  · rw [List.getElem?_set_ne (Nat.succ_ne_self addr), List.getElem?_set_self (by omega)]
  · rw [List.getElem?_set_self (by rw [List.length_set]; omega)]

/-- Placing a word takes away a ceiling already reached. -/
theorem State.placeWord_stepLimit_ne (s : State) (w : Nat) : (s.placeWord w).stepLimit ≠ some (s.placeWord w).steps := by
  change (if s.budgetSpent = true then none else s.stepLimit) ≠ some s.steps
  split
  · exact (Option.some_ne_none _).symm
  · next hbelow => rwa [s.budgetSpent_iff] at hbelow

/-- Placing a word leaves an address that the alignment test lets pass. -/
theorem State.placeWord_aligned (s : State) (w : Nat) :
    (s.placeWord w).pc % 2 = 0 ∨ (s.placeWord w).oddFetch = .overlap := by
  change s.pc % 2 = 0 ∨ (if s.misaligned = true then OddFetch.overlap else s.oddFetch) = .overlap
  split
  · exact .inr rfl
  · next haligned =>
    rw [s.misaligned_iff] at haligned
    cases hodd : s.oddFetch with
    | overlap => exact .inr rfl
    | fault => exact .inl (by simp only [hodd, and_true] at haligned; omega)

/-- The step from a state with a word placed executes the pair of that word. -/
theorem step_placeWord (s : State) (w : Nat) :
    step (s.placeWord w) = commit (exec (decode (wordOpcode w) (wordOperand w)) (s.placeWord w)) := by
  obtain ⟨hop, hod⟩ := placePair_getElem? s.prog s.pc (wordOpcode w) (wordOperand w)
  exact step_of_cells hop hod (s.placeWord_stepLimit_ne w) (s.placeWord_aligned w)

end Sys2Proof.Machine
end

/-! SUPPORT. The statements about reads, and about the step that runs a fetched or a placed pair (20_memory.md, 40_cycle_and_arith.md). -/
section
namespace Sys2Proof.Proofs

open Sys2Proof.Machine

/-- Settles O28: inside the Program a read is a segment of it, and outside it is not defined. -/
theorem memReadGivesCellsInOrder : Obligations.MemReadGivesCellsInOrder := by
  refine fun s addr n => ⟨fun hin => ⟨_, State.memRead_of_le hin, ?_, fun k hk => ?_⟩, State.memRead_of_lt⟩
  · have hlen : n ≤ s.prog.length - addr := Nat.le_sub_of_add_le' hin
    rw [List.length_take, List.length_drop, Nat.min_eq_left hlen]
  · rw [List.getElem?_take_of_lt hk, List.getElem?_drop]

/-- Settles O30: past the tests a step is the commit of the pair's outcome, next state or fault. -/
theorem stepRunsTheDecodedInstruction : Obligations.StepRunsTheDecodedInstruction := by
  intro s op od _ hbudget halign hop hod
  have hstep := step_of_cells hop hod hbudget halign
  exact ⟨fun t ht => hstep.trans (congrArg commit ht), fun f hf => hstep.trans (congrArg commit hf)⟩

/-- Settles O9: the placed word is a pair at the program counter of a state that passes the tests before the fetch. -/
theorem placedWordRunsNext : Obligations.PlacedWordRunsNext :=
  fun s nbits w hw => ⟨_, decodeTableWord_of_lt hw nbits, step_placeWord s w⟩

end Sys2Proof.Proofs
end

/-! SUPPORT. The status of a state that runs, and the cells and status of the launch state (70_reset_and_hazards.md). -/
section
namespace Sys2Proof.Machine

/-- Test 5 of R56 in terms of the operand cell's value. -/
theorem comboNegative_iff_combo {od : Cell} {s : State} :
    comboNegative od s = true ↔ ∃ k, combo od s = some k ∧ k < 0 := by
  unfold comboNegative
  cases combo od s <;> simp

/-- A state is Running when the tests before the fetch are passed and its pair is neither reserved nor a divide with a negative operand (R56). -/
theorem State.status_eq_running {s : State} {op od : Cell} (hstop : s.stopBeforeFetch = none)
    (hpair : s.fetchPair = some (op, od))
    (hreserved : (op = 0 ∨ op = 2 ∨ op = 5 ∨ op = 6 ∨ op = 7) → od ≠ 7)
    (hdivide : (op = 0 ∨ op = 6 ∨ op = 7) → ∀ k, combo od s = some k → 0 ≤ k) : s.status = .running := by
  have hfour : ¬(comboOpcode op && decide (od = 7)) = true := by
    simpa [comboOpcode] using hreserved
  have hfive : ¬(divideOpcode op && comboNegative od s) = true := by
    simpa [divideOpcode, comboNegative_iff_combo] using hdivide
  rw [State.status_of_fetchPair hstop hpair, if_neg hfour, if_neg hfive]

/-- A state at its ceiling with a full pair left has the status BudgetExhausted (R93). -/
theorem State.status_eq_budgetExhausted {s : State} (hlen : s.pc + 1 < s.prog.length)
    (hspent : s.stepLimit = some s.steps) : s.status = .budgetExhausted :=
  State.status_of_stopBeforeFetch (f := .budgetExhausted) (by simp [State.stopBeforeFetch_eq_some, State.atEnd, hlen, hspent])

/-- Each cell of a well-formed Program is launched with its value (R110). -/
theorem exists_launchState_cell {p : List Int} (hp : wellFormedLoad p) {i : Nat} {v : Int} (hv : p[i]? = some v)
    (a b c : Int) (limit : Option Nat) (odd : OddFetch) :
    ∃ cell : Cell, (launchState p a b c limit odd).prog[i]? = some cell ∧ (cell.val : Int) = v := by
  obtain ⟨-, -, hcells⟩ := hp
  have hval : ((toCell v).val : Int) = v := toCell_val (hcells v (List.mem_of_getElem? hv))
  exact ⟨toCell v, launchState_prog_getElem? (hv.trans (congrArg some hval.symm)) a b c limit odd, hval⟩

end Sys2Proof.Machine
end

/-! SUPPORT. The statements about reset and launch (10_state.md, 70_reset_and_hazards.md). -/
section
namespace Sys2Proof.Proofs

open Sys2Proof.Machine

/-- Settles O1: field by field, and the step finds no Program. -/
theorem resetHoldsNoProgram : Obligations.ResetHoldsNoProgram :=
  ⟨rfl, rfl, rfl, rfl, rfl, rfl, rfl, rfl, rfl, rfl⟩

/-- Settles O4: 0 is within every bound, and an absent ceiling bounds nothing. -/
theorem resetMeetsTheInvariants : Obligations.ResetMeetsTheInvariants :=
  ⟨Nat.zero_le _, ⟨le_rfl, le_rfl, le_rfl⟩, nofun⟩

/-- Settles O3: the launch state holds the arguments by construction, and its status is that of the first pair. -/
theorem launchHoldsTheArguments : Obligations.LaunchHoldsTheArguments := by
  intro p a b c limit odd hp
  have ⟨heven, htwo, _⟩ := hp
  have hlen : (launchState p a b c limit odd).prog.length = p.length := List.length_map _
  have hpair : (launchState p a b c limit odd).pc + 1 < (launchState p a b c limit odd).prog.length :=
    htwo.trans_eq hlen.symm
  refine ⟨_, launch_of_wellFormed a b c limit odd hp, rfl, rfl, rfl, rfl, rfl, rfl, rfl, rfl, hlen,
    fun i v hv => exists_launchState_cell hp hv a b c limit odd, ?_, State.launched_of_pair hpair,
    State.status_eq_budgetExhausted hpair, fun op od hlimit hop hod hreserved hdivide => ?_⟩
  · rw [wellFormedProgram, hlen]
    exact ⟨heven, htwo⟩
  · have hstop := (State.stopBeforeFetch_eq_none_iff _).mpr ⟨hpair, hlimit, .inl rfl⟩
    exact State.status_eq_running hstop (State.fetchPair_of_cells (launchState_prog_getElem? hop a b c limit odd)
      (launchState_prog_getElem? hod a b c limit odd)) hreserved hdivide

end Sys2Proof.Proofs
end

/-! SUPPORT. Changes of the state that a whole step cannot see: of the output, of `ODD_FETCH`, of a ceiling that is not in force. -/
section
namespace Sys2Proof.Machine

/-- The state with more output before its output. -/
def State.withOutputBefore (before : List Cell) (s : State) : State := { s with out := before ++ s.out }

theorem unseen_withOutputBefore (before : List Cell) : Unseen (State.withOutputBefore before) where
  getReg _ r := by cases r <;> rfl
  pc _ := rfl
  setReg _ r _ := by cases r <;> rfl
  advance _ := rfl
  jumpTo _ _ := rfl
  emit s v := by simp only [State.withOutputBefore, State.emit, List.append_assoc]

/-- The state with another setting of `ODD_FETCH`. -/
def State.withOddFetch (odd : OddFetch) (s : State) : State := { s with oddFetch := odd }

theorem unseen_withOddFetch (odd : OddFetch) : Unseen (State.withOddFetch odd) where
  getReg _ r := by cases r <;> rfl
  pc _ := rfl
  setReg _ r _ := by cases r <;> rfl
  advance _ := rfl
  jumpTo _ _ := rfl
  emit _ _ := rfl

/-- The state with another ceiling, or with none. -/
def State.withStepLimit (limit : Option Nat) (s : State) : State := { s with stepLimit := limit }

theorem unseen_withStepLimit (limit : Option Nat) : Unseen (State.withStepLimit limit) where
  getReg _ r := by cases r <;> rfl
  pc _ := rfl
  setReg _ r _ := by cases r <;> rfl
  advance _ := rfl
  jumpTo _ _ := rfl
  emit _ _ := rfl

/-- The fetched instruction depends on the Program and the program counter alone. -/
theorem State.fetchInstr_congr {s t : State} (hprog : t.prog = s.prog) (hpc : t.pc = s.pc) :
    t.fetchInstr = s.fetchInstr := by
  simp only [State.fetchInstr, State.fetchPair, State.memRead_congr hprog, hpc]

/-- A step does the same with an unseen change as without, when the Program and the tests before the fetch are the same with it. -/
theorem Unseen.step {f : State → State} (hf : Unseen f) (hcount : ∀ t : State, (f t).countStep = f t.countStep)
    {s : State} (hprog : (f s).prog = s.prog) (hstop : (f s).stopBeforeFetch = s.stopBeforeFetch) :
    Machine.step (f s) = mapNext f (Machine.step s) := by
  have hlaunched : (f s).launched = s.launched := by rw [State.launched, State.launched, hprog]
  unfold Machine.step
  rw [hlaunched, hstop, State.fetchInstr_congr hprog (hf.pc s)]
  split
  · cases s.stopBeforeFetch with
    | some fault => rfl
    | none =>
      cases s.fetchInstr with
      | none => rfl
      | some i =>
        simp only [hf.exec]
        cases Machine.exec i s with
        | next t => exact congrArg Host.Outcome.next (hcount t)
        | fault fault => rfl
        | refused r => rfl
  · rfl

/-- At an even program counter the alignment test is passed with either setting of `ODD_FETCH` (R91). -/
theorem step_withOddFetch {s : State} (heven : s.pc % 2 = 0) (odd : OddFetch) :
    step (s.withOddFetch odd) = mapNext (State.withOddFetch odd) (step s) := by
  have haligned : ∀ t : State, t.pc = s.pc → t.misaligned = false := fun t ht => by
    simp [State.misaligned, ht, heven]
  refine (unseen_withOddFetch odd).step (fun _ => rfl) rfl ?_
  rw [State.stopBeforeFetch, State.stopBeforeFetch, haligned s rfl, haligned (s.withOddFetch odd) rfl]
  rfl

/-- A ceiling can be put in another's place where neither is reached (R93). -/
theorem step_withStepLimit {s : State} {limit : Option Nat} (hbelow : s.stepLimit ≠ some s.steps)
    (hbelow' : limit ≠ some s.steps) :
    step (s.withStepLimit limit) = mapNext (State.withStepLimit limit) (step s) := by
  have hspent : s.budgetSpent = false := decide_eq_false hbelow
  have hspent' : (s.withStepLimit limit).budgetSpent = false := decide_eq_false hbelow'
  refine (unseen_withStepLimit limit).step (fun _ => rfl) rfl ?_
  rw [State.stopBeforeFetch, State.stopBeforeFetch, hspent, hspent']
  rfl

end Sys2Proof.Machine
end

/-! SUPPORT. The statements about what an instruction and a step do not read (10_state.md, 70_reset_and_hazards.md). -/
section
namespace Sys2Proof.Proofs

open Sys2Proof.Machine

/-- Settles O27: output before the output is a part of the state that no instruction can see. -/
theorem outputIsNeverRead : Obligations.OutputIsNeverRead :=
  fun i s before => (unseen_withOutputBefore before).exec s i

/-- Settles O43: only the alignment test reads the setting, and an even program counter passes it. -/
theorem oddFetchIdleAtEvenPc : Obligations.OddFetchIdleAtEvenPc :=
  fun _ odd heven => step_withOddFetch heven odd

end Sys2Proof.Proofs
end

/-! SUPPORT. The bitwise family as one update of B, with what the value written depends on (42_bitwise.md). -/
section
namespace Sys2Proof.Machine

/-- The operand 4 alone names register A (R46). -/
theorem comboDecode_eq_reg_a {od : Cell} : comboDecode od = some (.reg .a) ↔ od = 4 := by
  decide +revert

/-- An operand other than register A has the same value whatever A holds. -/
theorem evalCombo_with_a {o : Combo} (h : o ≠ .reg .a) (s : State) (v : Int) :
    evalCombo o { s with a := v } = evalCombo o s := by
  match o with
  | .reg .a => exact absurd rfl h
  | .reg .b | .reg .c | .lit n => rfl

/-- The bitwise family but for its reserved pair (2,7): it writes to B a value that is non-negative when B and C are, and that depends on A for
the pair (2,4) only (R75 to R77, log 10). -/
theorem exec_bitwise {op od : Cell} (hop : op = 1 ∨ op = 2 ∨ op = 4) (hpair : ¬(op = 2 ∧ od = 7)) :
    ∃ value : State → Int,
      (∀ s, exec (decode op od) s = .next { s with b := value s, pc := s.pc + 2 }) ∧
      (∀ s, 0 ≤ s.b → 0 ≤ s.c → 0 ≤ value s) ∧
      (¬(op = 2 ∧ od = 4) → ∀ (s : State) (v : Int), value { s with a := v } = value s) := by
  obtain rfl | rfl | rfl := hop
  · exact ⟨fun s => ixor s.b od.val, exec_bxl od, fun s hb _ => ixor_nonneg hb (Int.natCast_nonneg od.val),
      fun _ _ _ => rfl⟩
  · obtain ⟨o, hod⟩ := Option.ne_none_iff_exists'.mp fun hnone => hpair ⟨rfl, comboDecode_eq_none.mp hnone⟩
    refine ⟨fun s => mod8 (evalCombo o s), fun s => ?_, fun s _ _ => (mod8_range _).1, fun hfour s v => ?_⟩
    · have hdecode : decode 2 od = .bst o := decodeCombo_of_comboDecode hod _ _
      rw [hdecode, exec_bst]
    · have ho : o ≠ .reg .a := fun ha => hfour ⟨rfl, comboDecode_eq_reg_a.mp (ha ▸ hod)⟩
      exact congrArg mod8 (evalCombo_with_a ho s v)
  · exact ⟨fun s => ixor s.b s.c, exec_bxc od, fun s => ixor_nonneg, fun _ _ _ => rfl⟩

end Sys2Proof.Machine
end

/-! SUPPORT. The statement about the whole bitwise family (42_bitwise.md). -/
section
namespace Sys2Proof.Proofs

open Sys2Proof.Machine

/-- Settles O52: each pair of the family is an update of B, but for (2,7), which faults whatever A holds. -/
theorem bitwiseFamilyLeavesA : Obligations.BitwiseFamilyLeavesA := by
  intro op od s hop
  have hfour : exec (decode 2 4) s = .next { s with b := mod8 s.a, pc := s.pc + 2 } := exec_bst (.reg .a) s
  by_cases hpair : op = 2 ∧ od = 7
  · have hfault : ∀ t : State, exec (decode op od) t = .fault (.invalidOperand t.pc 2) := by
      obtain ⟨rfl, rfl⟩ := hpair
      exact exec_of_isReserved rfl
    refine ⟨fun t ht => ?_, fun hnot => absurd hpair hnot, fun _ _ => hpair, fun _ v => ?_, hfour⟩
    · simp [hfault] at ht
    · rw [hfault, hfault, mapNext]
  · obtain ⟨value, hexec, hnonneg, hindep⟩ := exec_bitwise hop hpair
    refine ⟨fun t ht => ?_, fun _ => ⟨_, hexec s⟩, fun f hf => ?_, fun hnot v => ?_, hfour⟩
    · obtain rfl := Host.Outcome.next.inj ((hexec s).symm.trans ht)
      exact ⟨rfl, rfl, rfl, hnonneg s⟩
    · simp [hexec] at hf
    · rw [hexec, hexec, mapNext, hindep hnot]

end Sys2Proof.Proofs
end

/-! SUPPORT. Runs: a JNZ to its own address, a divide that makes progress, the number of OUTs, the ceiling and a larger one (43_jump.md, 44_output.md,
60_exceptions.md). -/
section
namespace Sys2Proof.Machine

/-! ### A JNZ to its own address -/

/-- A taken JNZ to its own address changes the step count alone (R79). -/
theorem step_self_jump {s : State} {l : Cell} (hjnz : s.prog[s.pc]? = some 3) (hlit : s.prog[s.pc + 1]? = some l)
    (hself : l.val = s.pc) (ha : s.a ≠ 0) (hbudget : s.stepLimit ≠ some s.steps)
    (halign : s.pc % 2 = 0 ∨ s.oddFetch = .overlap) : step s = .next s.countStep := by
  have hstep : step s = commit (exec (.jnz l) s) := step_of_cells hjnz hlit hbudget halign
  rw [hstep, exec_jnz_of_a_ne_zero l ha, hself, commit]

/-- Where every step only counts, a run only counts its steps. -/
theorem runFor_of_step_counts {s : State}
    (h : ∀ n : Nat, step { s with steps := n } = .next { s with steps := n + 1 }) (k n : Nat) :
    runFor k { s with steps := n } = { s with steps := n + k } := by
  induction k generalizing n with
  | zero => rfl
  | succ k ih => rw [runFor_succ_of_next (h n), ih, Nat.add_right_comm, Nat.add_assoc]

/-! ### A divide that makes progress -/

/-- A positive dividend has a smaller quotient by a power with exponent at least 1. -/
theorem tdiv_pow2_lt_self {a k : Int} (ha : 0 < a) (hk : 1 ≤ k) : tdiv a (pow2 k) < a := by
  have htwo : 2 ≤ pow2 k := by
    have hpow : 2 ^ 1 ≤ 2 ^ k.toNat := Nat.pow_le_pow_right two_pos (by omega)
    unfold pow2
    omega
  rw [tdiv_of_nonneg ha.le]
  exact Int.ediv_lt_self_of_pos_of_ne_one ha (by omega)

/-! ### The number of OUT instructions -/

/-- Where a step is made, the count goes on from the next state (R87). -/
theorem outsExecuted_succ_of_next {s t : State} (h : step s = .next t) (k : Nat) :
    outsExecuted (k + 1) s = (if s.outNext then 1 else 0) + outsExecuted k t := by
  simp only [outsExecuted, h]

/-- A stopped machine executes nothing. -/
theorem outsExecuted_of_stopped {s : State} (h : s.stopped) (k : Nat) : outsExecuted k s = 0 := by
  cases k with
  | zero => rfl
  | succ k =>
    unfold outsExecuted
    split
    · exact absurd ‹_› (h _)
    all_goals rfl

/-- A step makes the output longer by one when it executes OUT (R85). -/
theorem step_next_out_length {s t : State} (h : step s = .next t) :
    t.out.length = s.out.length + if s.outNext then 1 else 0 := by
  have hout := step_next_out h
  split at hout
  · next hyes =>
    obtain ⟨v, hv⟩ := hout
    rw [hv, List.length_append, List.length_singleton, if_pos hyes]
  · next hno => rw [hout, if_neg hno, Nat.add_zero]

/-- A run makes the output longer by the number of OUT instructions executed (R87). -/
theorem runFor_out_length (s : State) (k : Nat) : (runFor k s).out.length = s.out.length + outsExecuted k s := by
  induction k generalizing s with
  | zero => rfl
  | succ k ih =>
    obtain ⟨t, ht⟩ | hstop := s.step_next_or_stopped
    · rw [runFor_succ_of_next ht, ih, step_next_out_length ht, outsExecuted_succ_of_next ht, Nat.add_assoc]
    · rw [runFor_of_stopped hstop, outsExecuted_of_stopped hstop, Nat.add_zero]

/-! ### The ceiling -/

/-- The state a run is in after at most `k` steps is a state of the run. -/
theorem reaches_runFor {s t : State} (h : Reaches s t) (k : Nat) : Reaches s (runFor k t) := by
  induction k generalizing t with
  | zero => exact h
  | succ k ih =>
    obtain ⟨u, hu⟩ | hstop := t.step_next_or_stopped
    · rw [runFor_succ_of_next hu]
      exact ih (h.step hu)
    · rwa [runFor_of_stopped hstop]

/-- A machine at its ceiling has stopped (R93). -/
theorem State.stopped_of_ceiling {s : State} (h : s.stepLimit = some s.steps) : s.stopped := by
  intro t ht
  obtain ⟨-, hstop, -⟩ := step_next_cases ht
  obtain ⟨-, hbelow, -⟩ := s.stopBeforeFetch_eq_none_iff.mp hstop
  exact hbelow h

/-- An unseen change passes through a run when it passes through the first step and through the rest of the run. -/
theorem runFor_succ_of_mapNext {f : State → State} {s : State} {k : Nat} (hstep : step (f s) = mapNext f (step s))
    (hrest : ∀ t, step s = .next t → runFor k (f t) = f (runFor k t)) :
    runFor (k + 1) (f s) = f (runFor (k + 1) s) := by
  obtain ⟨t, ht⟩ | hstop := s.step_next_or_stopped
  · have hnext : step (f s) = .next (f t) := by rw [hstep, ht, mapNext]
    rw [runFor_succ_of_next ht, runFor_succ_of_next hnext, hrest t ht]
  · have hstop' : (f s).stopped := by
      intro u hu
      cases hs : step s with
      | next t => exact hstop t hs
      | fault r | refused r => simp [hstep, hs, mapNext] at hu
    rw [runFor_of_stopped hstop, runFor_of_stopped hstop']

/-- As far as a ceiling goes, a run is the same under a larger one or none (R98). -/
theorem runFor_withStepLimit {n : Nat} {larger : Option Nat} (hlarger : ∀ m, larger = some m → n ≤ m) {s : State} {k : Nat}
    (hn : s.stepLimit = some n) (hk : s.steps + k ≤ n) :
    runFor k (s.withStepLimit larger) = (runFor k s).withStepLimit larger := by
  induction k generalizing s with
  | zero => rfl
  | succ k ih =>
    have hbelow : s.stepLimit ≠ some s.steps := fun h => by
      have hreached : n = s.steps := Option.some.inj (hn.symm.trans h)
      omega
    have hbelow' : larger ≠ some s.steps := fun h => by
      have hpassed : n ≤ s.steps := hlarger _ h
      omega
    refine runFor_succ_of_mapNext (f := State.withStepLimit larger) (step_withStepLimit hbelow hbelow') fun t ht => ?_
    obtain ⟨-, hsteps, hlimit, -⟩ := step_next_frame ht
    exact ih (hlimit.trans hn) (by omega)

end Sys2Proof.Machine
end

/-! SUPPORT. The statements about whole runs (43_jump.md, 44_output.md, 60_exceptions.md). -/
section
namespace Sys2Proof.Proofs

open Sys2Proof.Machine

/-- Settles O41: whatever the step count, a step only counts, so the run never comes to a stop. -/
theorem selfJumpNeverStops : Obligations.SelfJumpNeverStops := by
  intro s l _ hjnz hlit hself ha hnone halign k
  have hcounts : ∀ n : Nat, step { s with steps := n } = .next { s with steps := n + 1 } := fun n =>
    step_self_jump (s := { s with steps := n }) hjnz hlit hself ha (by simp [hnone]) halign
  have hrun : runFor k s = { s with steps := s.steps + k } := runFor_of_step_counts hcounts k s.steps
  exact ⟨hrun, fun hstop => hstop _ (hrun ▸ hcounts (s.steps + k))⟩

/-- Settles O42: the quotient of a positive dividend by a power of at least 2. -/
theorem advLowersAPositiveA : Obligations.AdvLowersAPositiveA :=
  fun _ _ ha hk => ⟨_, divide_of_nonneg (zero_le_one.trans hk), tdiv_nonneg ha.le (pow2_pos _), tdiv_pow2_lt_self ha hk⟩

/-- Settles O47: by induction over the steps; a launch starts with no output. -/
theorem outputLengthCountsOuts : Obligations.OutputLengthCountsOuts := by
  refine ⟨runFor_out_length, fun p a b c limit odd s k hlaunch => ?_⟩
  obtain ⟨-, rfl⟩ := launch_eq_next.mp hlaunch
  exact (runFor_out_length _ k).trans (Nat.zero_add _)

/-- Settles O50: a run that had not stopped would have counted up to the ceiling, where it stops. -/
theorem ceilingEndsEveryRun : Obligations.CeilingEndsEveryRun := by
  intro s n hn hle
  by_contra hrunning
  have hsteps : (runFor (n - s.steps) s).steps = n := by
    rw [runFor_steps_of_not_stopped hrunning]
    omega
  obtain ⟨-, hlimit, -⟩ := (reaches_runFor .start (n - s.steps) : Reaches s _).frame
  exact hrunning (State.stopped_of_ceiling (by rw [hlimit, hn, hsteps]))

/-- Settles O51: below the smaller ceiling neither is reached; at it, the other is still not, and stands in the place of none. -/
theorem largerCeilingRepeatsTheRun : Obligations.LargerCeilingRepeatsTheRun := by
  refine ⟨fun s n k larger hn hlarger hk => runFor_withStepLimit hlarger hn hk, fun s n larger hn hother hspent => ?_⟩
  obtain ⟨-, hceiling⟩ := step_eq_budgetExhausted_iff.mp hspent
  have hbelow : larger ≠ some s.steps := fun h => hother (h.trans (hceiling.symm.trans hn))
  refine ⟨fun hstop => ?_, ?_⟩
  · obtain ⟨-, hlimit⟩ := step_eq_budgetExhausted_iff.mp hstop
    exact hbelow hlimit
  · exact step_withStepLimit (s := s.withStepLimit none) (Option.some_ne_none _).symm hbelow

end Sys2Proof.Proofs
end
